-- ==== Sys2Proof/Word.lean ====
section
/-! DEFINITION. The word type: every register, memory cell, operand byte and opcode byte is one byte (spec/00_scope.md R6, `XLEN` = 8). -/

namespace Sys2Proof

/-- A byte: an integer in 0..255, always read as unsigned (R8). -/
abbrev Byte := BitVec 8

/-- A register index, 0..7 (R11). -/
abbrev RegIx := Fin 8

end Sys2Proof
end

