-- ==== Sys2Proof/Config.lean ====
section
/-! DEFINITION. What this hardware fixes: the parameters of spec/00_scope.md R6, the names of the opcode table's rows
and the type of an opcode table. The spec leaves no value free, so there is no opaque constant. -/

namespace Sys2Proof

namespace Config

/-- `MEM_SIZE`: the number of memory cells, addresses 0..255. -/
def memSize : Nat := 256

/-- `SP_INDEX`: the register that is the stack pointer (R12). -/
def spIndex : RegIx := 7

/-- `PC_RESET`: the entry point (R161). -/
def pcReset : Byte := 0

/-- `SP_RESET`: register 7 after reset. -/
def spReset : Byte := 0xF4

/-- `REG_RESET`: registers 0 to 6 after reset. -/
def regReset : Byte := 0

/-- `MEM_RESET`: every memory cell after reset, before the load. -/
def memReset : Byte := 0

end Config

/-- The 13 rows of the opcode table (spec/30_encoding.md R55). -/
inductive Mnemonic where
  | hlt | ldi | prn | add | mul | cmp | push | pop | call | ret | jmp | jeq | jne
  deriving DecidableEq, Repr

/-- The four instruction formats (R51). -/
inductive Format where
  /-- no operand, 1 byte -/
  | z
  /-- one register, 2 bytes -/
  | r
  /-- two registers, 3 bytes -/
  | rr
  /-- register and immediate, 3 bytes -/
  | ri
  deriving DecidableEq, Repr

/-- An opcode table `OPC`: the opcode byte of each row. R56 asks that a model can be given the table and requires of it
only that the bytes are pairwise distinct. -/
abbrev OpcodeTable := Mnemonic → Byte

/-- The one thing R56 requires of an opcode table. -/
def OpcodeTable.Distinct (t : OpcodeTable) : Prop := ∀ m n : Mnemonic, t m = t n → m = n

end Sys2Proof
end

