-- ==== Sys2Proof/Syntax.lean ====
section
/-! DEFINITION. The instructions: one constructor per row of spec/opcode_table.json. A register operand stays the whole
operand byte (spec/30_encoding.md R53): which bytes name a register is checked by the instruction itself. -/

namespace Sys2Proof

/-- The complete instruction set (R55). `opA` and `opB` are the candidate operand bytes the row's format has (R51). -/
inductive Instr where
  /-- Halt (R76). -/
  | hlt
  /-- Load immediate (R80). -/
  | ldi (opA imm8 : Byte)
  /-- Print register (R82). -/
  | prn (opA : Byte)
  /-- Add registers (R92). -/
  | add (opA opB : Byte)
  /-- Multiply registers (R93). -/
  | mul (opA opB : Byte)
  /-- Compare registers (R94). -/
  | cmp (opA opB : Byte)
  /-- Push register (R100). -/
  | push (opA : Byte)
  /-- Pop into register (R102). -/
  | pop (opA : Byte)
  /-- Call the subroutine at the address in a register (R104). -/
  | call (opA : Byte)
  /-- Return from subroutine (R106). -/
  | ret
  /-- Jump to the address in a register (R116). -/
  | jmp (opA : Byte)
  /-- Jump if equal (R117). -/
  | jeq (opA : Byte)
  /-- Jump if not equal (R118). -/
  | jne (opA : Byte)
  deriving DecidableEq, Repr

end Sys2Proof
end

