-- ==== Sys2Proof/WellFormed.lean ====
section
/-! DEFINITION. When an instruction is well formed: every register operand its format has names a register
(spec/30_encoding.md R53). An ill-formed instruction still has a meaning: it raises AddressError(reg). -/

namespace Sys2Proof

/-- Values 0..7 of a register operand byte name a register, 8..255 name none (R53). -/
def namesRegister (op : Byte) : Bool := op.toNat < 8

/-- Every register operand of the instruction names a register; an immediate may be any byte (R54). -/
def Instr.wellFormed : Instr → Bool
  | .hlt => true
  | .ldi opA _ => namesRegister opA
  | .prn opA => namesRegister opA
  | .add opA opB => namesRegister opA && namesRegister opB
  | .mul opA opB => namesRegister opA && namesRegister opB
  | .cmp opA opB => namesRegister opA && namesRegister opB
  | .push opA => namesRegister opA
  | .pop opA => namesRegister opA
  | .call opA => namesRegister opA
  | .ret => true
  | .jmp opA => namesRegister opA
  | .jeq opA => namesRegister opA
  | .jne opA => namesRegister opA

end Sys2Proof
end

