-- ==== Sys2Proof/Decode.lean ====
section
/-! DEFINITION. The opcode table, the decoder, the encoder and the host's view of the decoder (spec/30_encoding.md). -/

namespace Sys2Proof

/-- The opcode table of R55. HLT, LDI and PRN are printed by the source; the other ten bytes are supplied from general
knowledge (R56, `92_eei_decisions.md` D14). PRESUMED, unsafe: assumption log 1. -/
def opc : OpcodeTable
  | .hlt => 0x01
  | .ldi => 0x82
  | .prn => 0x47
  | .add => 0xA0
  | .mul => 0xA2
  | .cmp => 0xA7
  | .push => 0x45
  | .pop => 0x46
  | .call => 0x50
  | .ret => 0x11
  | .jmp => 0x54
  | .jeq => 0x55
  | .jne => 0x56

/-- The rows in the order of R55. -/
def allMnemonics : List Mnemonic :=
  [.hlt, .ldi, .prn, .add, .mul, .cmp, .push, .pop, .call, .ret, .jmp, .jeq, .jne]

/-- The format of a row (R51, R55). -/
def Mnemonic.format : Mnemonic → Format
  | .hlt => .z
  | .ldi => .ri
  | .prn => .r
  | .add => .rr
  | .mul => .rr
  | .cmp => .rr
  | .push => .r
  | .pop => .r
  | .call => .r
  | .ret => .z
  | .jmp => .r
  | .jeq => .r
  | .jne => .r

/-- The encoded width of a format: 1 + operand count (R50, R51). -/
def Format.length : Format → Nat
  | .z => 1
  | .r => 2
  | .rr => 3
  | .ri => 3

/-- Find the row whose opcode byte equals the fetched byte, all 8 bits (R52, R57). -/
def lookup (t : OpcodeTable) (opcode : Byte) : Option Mnemonic :=
  allMnemonics.find? fun m => t m == opcode

/-- The instruction of a row, given both candidate operand bytes: it uses those its format has (R57, R60). -/
def Mnemonic.build (m : Mnemonic) (opA opB : Byte) : Instr :=
  match m with
  | .hlt => .hlt
  | .ldi => .ldi opA opB
  | .prn => .prn opA
  | .add => .add opA opB
  | .mul => .mul opA opB
  | .cmp => .cmp opA opB
  | .push => .push opA
  | .pop => .pop opA
  | .call => .call opA
  | .ret => .ret
  | .jmp => .jmp opA
  | .jeq => .jeq opA
  | .jne => .jne opA

/-- Why the decoder rejects: the opcode byte is one of those no row has (R58). -/
inductive DecodeError where
  | unknownOpcode (opcode : Byte)
  deriving DecidableEq, Repr

/-- The decoder for a given opcode table: the opcode byte and the two candidate operand bytes (R57, R72). -/
def decodeWith (t : OpcodeTable) (opcode opA opB : Byte) : Except DecodeError Instr :=
  match lookup t opcode with
  | none => .error (.unknownOpcode opcode)
  | some m => .ok (m.build opA opB)

/-- The decoder of this hardware. -/
def decode (opcode opA opB : Byte) : Except DecodeError Instr := decodeWith opc opcode opA opB

/-- The decoder on a byte string: its first three bytes, a byte beyond its end read as 0 (DESIGN CHOICE, safe: assumption
log 23; the machine itself always hands the decoder three bytes it has read). -/
def decodeBytesWith (t : OpcodeTable) (bytes : List Byte) : Except DecodeError Instr :=
  decodeWith t (bytes.getD 0 0) (bytes.getD 1 0) (bytes.getD 2 0)

/-- The row an instruction belongs to. -/
def Instr.mnemonic : Instr → Mnemonic
  | .hlt => .hlt
  | .ldi _ _ => .ldi
  | .prn _ => .prn
  | .add _ _ => .add
  | .mul _ _ => .mul
  | .cmp _ _ => .cmp
  | .push _ => .push
  | .pop _ => .pop
  | .call _ => .call
  | .ret => .ret
  | .jmp _ => .jmp
  | .jeq _ => .jeq
  | .jne _ => .jne

/-- The operand bytes an instruction has, in the order they stand in memory (R50, R51). -/
def Instr.operands : Instr → List Byte
  | .hlt => []
  | .ldi opA imm8 => [opA, imm8]
  | .prn opA => [opA]
  | .add opA opB => [opA, opB]
  | .mul opA opB => [opA, opB]
  | .cmp opA opB => [opA, opB]
  | .push opA => [opA]
  | .pop opA => [opA]
  | .call opA => [opA]
  | .ret => []
  | .jmp opA => [opA]
  | .jeq opA => [opA]
  | .jne opA => [opA]

/-- The encoded width of an instruction: a property of its row (R50). -/
def Instr.length (i : Instr) : Nat := i.mnemonic.format.length

/-- The encoder for a given opcode table: opcode byte, then operand bytes, at ascending addresses (R50). -/
def encodeWith (t : OpcodeTable) (i : Instr) : List Byte := t i.mnemonic :: i.operands

/-- The encoder of this hardware. -/
def encode (i : Instr) : List Byte := encodeWith opc i

/-- Byte `k` of the number `w`, byte 0 the least significant. -/
def tableByte (w k : Nat) : Byte := BitVec.ofNat 8 (w / 2 ^ (8 * k))

/-- The three bytes of an instruction whose low `nbits` bits are `w` and whose other bits are 0, in the order they stand in
memory. -/
def tableBytes (nbits w : Nat) : List Byte :=
  let v := w % 2 ^ nbits
  [tableByte v 0, tableByte v 1, tableByte v 2]

/-- The instruction the decoder reads from the bits `w`, numbered as spec/opcode_table.json numbers them. -/
def decodeTableWord (nbits w : Nat) : Option Instr :=
  match decodeBytesWith opc (tableBytes nbits w) with
  | .ok i => some i
  | .error _ => none

end Sys2Proof
end

