-- ==== Sys2Proof/Machine/State.lean ====
section
/-! DEFINITION. The complete architectural state (spec/10_state.md R10) as plain data, and its value after reset (R25). -/

namespace Sys2Proof.Machine

/-- Which range check an AddressError reports (spec/60_exceptions.md R133). -/
inductive AddressSpace where
  /-- a memory access outside 0..255 -/
  | mem
  /-- a register operand byte above 7 -/
  | reg
  /-- a sequential program-counter step past 255 -/
  | pc
  deriving DecidableEq, Repr

/-- The causes the core can record, each with its own datum (R131 to R135). -/
inductive FaultCause where
  /-- UnknownOpcodeError: the byte at `pc` is in no row of the opcode table (R132). -/
  | unknownOpcodeError (opcode : Byte)
  /-- AddressError: the refused address, operand byte or successor address (R133). -/
  | addressError (space : AddressSpace) (value : Int)
  /-- StackError: the stack-pointer value that was refused (R134). -/
  | stackError (value : Int)
  /-- UnsupportedOperationError: defined and unreachable (R135). -/
  | unsupportedOperationError
  deriving DecidableEq, Repr

/-- The fault record (R131). The code is a function of the cause, so it is not stored a second time
(`FaultRecord.code`; DESIGN CHOICE, safe: assumption log 6). -/
structure FaultRecord where
  /-- the cause with its info -/
  cause : FaultCause
  /-- the address of the opcode byte of the faulting instruction -/
  pc : Byte
  deriving DecidableEq, Repr

/-- The run state (R19). -/
inductive RunState where
  | running
  | halted
  | faulted (record : FaultRecord)
  deriving DecidableEq, Repr

/-- The flags register: three bits (R16). Kept as three Booleans, as R17 allows. -/
structure Flags where
  /-- `L` -/
  less : Bool
  /-- `G` -/
  greater : Bool
  /-- `E` -/
  equal : Bool
  deriving DecidableEq, Repr

/-- Memory: the cells that do not hold 0, by rising address (spec/20_memory.md R30; every unlisted cell holds its reset
value 0, R25). -/
abbrev Memory := List Host.Cell

/-- The architectural state (R10). -/
structure State where
  /-- the general registers `x[0]` to `x[7]`; `x[7]` is the stack pointer (R11, R12) -/
  x : Vector Byte 8
  /-- the program counter (R14) -/
  pc : Byte
  /-- the flags (R16) -/
  fl : Flags
  /-- the run state, with the fault record when it is Faulted (R19) -/
  run : RunState
  /-- the 256 memory cells (R21) -/
  mem : Memory
  /-- the output trace, most recent byte last (R22) -/
  out : List Byte
  deriving DecidableEq, Repr

/-- Why the machine takes no step. A fault of an INSTRUCTION is none of these: it is a next state whose run state is
Faulted(record) (R143). -/
inductive Fault where
  /-- Raised by `step` alone, when the run state is Halted: no step is enabled (R77). Safe: nothing goes on after it. -/
  | halted
  /-- Raised by `step` alone, when the run state is Faulted(record): no step is enabled (R77). Safe: nothing goes on after
  it. -/
  | faulted (record : FaultRecord)
  deriving DecidableEq, Repr

/-- What the model gives no meaning. -/
inductive Refusal where
  /-- Raised by an arm of `exec` whose instruction has no meaning yet; no arm does. Safe. -/
  | notModelled (mnemonic : String)
  /-- Raised by `loadImage` alone: the image has more than 256 bytes and the load is refused (R165). Safe. -/
  | imageTooLong (length : Nat)
  deriving DecidableEq, Repr

/-- The machine right after reset, before the load (R25, R160). The flags' value is the spec's own decision D5 (assumption
log 2). -/
def State.reset : State where
  x := (Vector.replicate 8 Config.regReset).set 7 Config.spReset
  pc := Config.pcReset
  fl := ⟨false, false, false⟩
  run := .running
  mem := []
  out := []

end Sys2Proof.Machine
end

