-- ==== Sys2Proof/Machine/Ops.lean ====
section
/-! DEFINITION. The named operations over memory and registers: the primitives of spec/00_scope.md R8, and taking a fault
(spec/60_exceptions.md R142, R143). There is no return from a fault (R144): only reset leaves Faulted. -/

namespace Sys2Proof.Machine

/-! ### Memory (spec/20_memory.md) -/

/-- What a memory cell holds that nothing has written (R25, R36(c)). -/
def Memory.default : Byte := Config.memReset

/-- `mem[a]`. -/
def Memory.read (m : Memory) (a : Nat) : Byte :=
  match m with
  | [] => Memory.default
  | c :: m => if c.1 = a then c.2 else Memory.read m a

/-- Put a cell in front of the first cell with a higher address. -/
def Memory.insertCell (m : Memory) (a : Nat) (v : Byte) : Memory :=
  match m with
  | [] => [(a, v)]
  | c :: m => if a < c.1 then (a, v) :: c :: m else c :: Memory.insertCell m a v

/-- Drop what is listed at an address. -/
def Memory.erase (m : Memory) (a : Nat) : Memory := m.filter fun c => c.1 != a

/-- `mem[a] <- v`, keeping the canonical form: a cell that holds the default is not listed. -/
def Memory.write (m : Memory) (a : Nat) (v : Byte) : Memory :=
  if v = Memory.default then Memory.erase m a else Memory.insertCell (Memory.erase m a) a v

/-- The canonical form: addresses strictly rising and below 256, no cell that holds the default. -/
abbrev Memory.wf (m : Memory) : Prop :=
  m.Pairwise (fun c d => c.1 < d.1) ∧ ∀ c ∈ m, c.2 ≠ Memory.default ∧ c.1 < Config.memSize

/-- Memory as a whole takes a new value. -/
def setMem (m : Memory) (s : State) : State := { s with mem := m }

/-- `MemRead(addr, 1)`: a byte, or AddressError(mem, addr) outside 0..255 (R8, R32). -/
def memRead (addr : Int) (s : State) : Except FaultCause Byte :=
  if addr < 0 ∨ 255 < addr then .error (.addressError .mem addr) else .ok (Memory.read s.mem addr.toNat)

/-- `MemWrite(addr, 1, v)`, with the same range check (R8). -/
def memWrite (addr : Int) (v : Byte) (s : State) : Except FaultCause State :=
  if addr < 0 ∨ 255 < addr then .error (.addressError .mem addr)
  else .ok (setMem (Memory.write s.mem addr.toNat v) s)

/-! ### Registers, program counter, output -/

/-- `x[i]`. -/
def getReg (i : RegIx) (s : State) : Byte := s.x[i]

/-- `x[i] <- v`. No register is hardwired or read-only (R11). -/
def setReg (i : RegIx) (v : Byte) (s : State) : State := { s with x := s.x.set i v }

/-- `sp`: the storage of `x[7]` (R12). -/
def getSp (s : State) : Byte := getReg Config.spIndex s

/-- `sp <- v` (R12). -/
def setSp (v : Byte) (s : State) : State := setReg Config.spIndex v s

/-- `fl <- f` (R16). -/
def setFlags (f : Flags) (s : State) : State := { s with fl := f }

/-- `run <- r` (R19). -/
def setRun (r : RunState) (s : State) : State := { s with run := r }

/-- `pc <- target` (R8): a byte is always in range. -/
def setPc (target : Byte) (s : State) : State := { s with pc := target }

/-- `Advance(n)`: the sequential program-counter step, or AddressError(pc, pc + n) past 255 (R74). -/
def advance (n : Nat) (s : State) : Except FaultCause State :=
  if 255 < s.pc.toNat + n then .error (.addressError .pc ((s.pc.toNat + n : Nat) : Int))
  else .ok (setPc (BitVec.ofNat 8 (s.pc.toNat + n)) s)

/-- `Emit(v)`: append a byte to the output trace (R22). It cannot fail (R83). -/
def emit (v : Byte) (s : State) : State := { s with out := s.out ++ [v] }

/-! ### The stack pointer's steps (spec/43_stack.md R108, R109) -/

/-- `s = x[7] - 1; if s < 0: raise StackError(s); x[7] <- s`. -/
def decrementSp (s : State) : Except FaultCause State :=
  let v : Int := (getSp s).toNat - 1
  if v < 0 then .error (.stackError v) else .ok (setSp (BitVec.ofInt 8 v) s)

/-- `s = x[7] + 1; if s > 255: raise StackError(s); x[7] <- s`. -/
def incrementSp (s : State) : Except FaultCause State :=
  let v : Int := (getSp s).toNat + 1
  if 255 < v then .error (.stackError v) else .ok (setSp (BitVec.ofInt 8 v) s)

/-! ### Taking a fault -/

/-- Fault entry: `run <- Faulted(record)`, and that is all (R143). The state given is the one at the START of the step, so
nothing the instruction did before the raise is kept (R142). -/
def takeFault (c : FaultCause) (s : State) : State := setRun (.faulted ⟨c, s.pc⟩) s

/-- The end of a step that began in `s`: all writes become visible together when no raise happened; a raise discards them
all (R8, R142). Either way there is a next state (R78; DEDUCED, safe: assumption log 4). -/
def commit (s : State) (r : Except FaultCause State) : Host.Outcome State Fault Refusal :=
  match r with
  | .ok t => .next t
  | .error c => .next (takeFault c s)

/-! ### Views of the fault record (R131, R137) -/

/-- The numeric cause code (R137). -/
def FaultRecord.code (r : FaultRecord) : Nat :=
  match r.cause with
  | .unknownOpcodeError _ => 1
  | .addressError _ _ => 2
  | .stackError _ => 3
  | .unsupportedOperationError => 4

/-- The cause's name (R137). -/
def FaultRecord.name (r : FaultRecord) : String :=
  match r.cause with
  | .unknownOpcodeError _ => "UnknownOpcodeError"
  | .addressError _ _ => "AddressError"
  | .stackError _ => "StackError"
  | .unsupportedOperationError => "UnsupportedOperationError"

end Sys2Proof.Machine
end

