-- ==== Sys2Proof/Machine/Operands.lean ====
section
/-! DEFINITION. The operand forms (spec/30_encoding.md R53, R54) and the one addressing mode: register-indirect through the
stack pointer with update (spec/43_stack.md R108). An immediate operand is its byte as it stands and needs no function. -/

namespace Sys2Proof.Machine

/-- `Reg(op)`: the register index an operand byte names, or AddressError(reg, op) above 7. The index is not masked (R53). -/
def regIndex (op : Byte) : Except FaultCause RegIx :=
  if h : op.toNat < 8 then .ok ⟨op.toNat, h⟩ else .error (.addressError .reg (op.toNat : Int))

/-- Both register operands of format RR: `opA` is checked before `opB` (R53, R73). -/
def regPair (opA opB : Byte) : Except FaultCause (RegIx × RegIx) := do
  let a ← regIndex opA
  let b ← regIndex opB
  return (a, b)

/-- The address the stack pointer holds. -/
def spAddress (s : State) : Int := ((getSp s).toNat : Int)

/-- The access of a push, `sp <- sp - 1` and then `mem[sp] <- value`; the value is read AFTER the decrement (R100, R104,
D8; UNVERIFIED, unsafe: assumption log 10). -/
def pushByte (value : State → Byte) (s : State) : Except FaultCause State := do
  let s1 ← decrementSp s
  memWrite (spAddress s1) (value s1) s1

/-- The read of a pop: `mem[sp]`. The increment is a step of its own, after the destination is written (R102, R106). -/
def stackTop (s : State) : Except FaultCause Byte := memRead (spAddress s) s

end Sys2Proof.Machine
end

