-- ==== Sys2Proof/Machine/Flags.lean ====
section
/-! DEFINITION. The ALU and its flag computation (spec/42_alu.md R90, R91, R94, R95), and the byte view of the flags
(spec/10_state.md R17). -/

namespace Sys2Proof.Machine

/-- What CMP sets: exactly one of Less, Greater, Equal, by unsigned comparison of register A with register B (R94, R96). -/
def compareFlags (a b : Byte) : Flags where
  less := decide (a.toNat < b.toNat)
  greater := decide (b.toNat < a.toNat)
  equal := decide (a.toNat = b.toNat)

/-- The byte view `0b00000LGE` of the flags (R17). No instruction can observe it (assumption log 17). -/
def Flags.byte (f : Flags) : Byte :=
  BitVec.ofNat 8 (4 * f.less.toNat + 2 * f.greater.toNat + f.equal.toNat)

/-- The operation the dispatcher hands the ALU. The ALU's set is exactly ADD, MUL, CMP (R90); any other name is the
impossible arm R95 speaks of, which no instruction issues. -/
inductive AluOp where
  | add
  | mul
  | cmp
  | other (name : String)
  deriving DecidableEq, Repr

/-- What the ALU produces: an 8-bit result or the three flag bits (R90). -/
inductive AluResult where
  | result (v : Byte)
  | flags (f : Flags)
  deriving DecidableEq, Repr

/-- The ALU: a pure function of an operation and two register values. Results are computed exactly and reduced modulo 256
(R91). -/
def alu (op : AluOp) (a b : Byte) : Except FaultCause AluResult :=
  match op with
  | .add => .ok (.result (BitVec.ofNat 8 (a.toNat + b.toNat)))
  | .mul => .ok (.result (BitVec.ofNat 8 (a.toNat * b.toNat)))
  | .cmp => .ok (.flags (compareFlags a b))
  | .other _ => .error .unsupportedOperationError

/-- A result goes in place into the first operand register (R90); flags go to the flags register (R94). -/
def writeAluResult (a : RegIx) (r : AluResult) (s : State) : State :=
  match r with
  | .result v => setReg a v s
  | .flags f => setFlags f s

/-- An ALU instruction: the operand checks, the operation, the write, `Advance(3)` (R92 to R94). -/
def aluInstr (op : AluOp) (opA opB : Byte) (s : State) : Except FaultCause State := do
  let (a, b) ← regPair opA opB
  let r ← alu op (getReg a s) (getReg b s)
  advance 3 (writeAluResult a r s)

end Sys2Proof.Machine
end

