-- ==== Sys2Proof/Machine/Alu.lean ====
section
/-! DEFINITION. ADD, MUL, CMP (spec/42_alu.md). All three advance by 3: spec/90_conflicts.md C1 and C2. -/

namespace Sys2Proof.Machine

/-- ADD: `x[a] <- (x[a] + x[b]) mod 256` (R92). -/
def execAdd (opA opB : Byte) (s : State) : Host.Outcome State Fault Refusal :=
  commit s (aluInstr .add opA opB s)

/-- MUL: `x[a] <- (x[a] * x[b]) mod 256` (R93). -/
def execMul (opA opB : Byte) (s : State) : Host.Outcome State Fault Refusal :=
  commit s (aluInstr .mul opA opB s)

/-- CMP: all three flags from the unsigned order of `x[a]` and `x[b]` (R94). -/
def execCmp (opA opB : Byte) (s : State) : Host.Outcome State Fault Refusal :=
  commit s (aluInstr .cmp opA opB s)

end Sys2Proof.Machine
end

