-- ==== Sys2Proof/Machine/Branch.lean ====
section
/-! DEFINITION. JMP, JEQ, JNE (spec/44_branch.md). Targets are absolute byte addresses from a register (R115). -/

namespace Sys2Proof.Machine

/-- Jump to `x[a]` when the condition holds, else `Advance(2)`: exactly one of the two (R74, R117). -/
def branchIf (taken : Bool) (a : RegIx) (s : State) : Except FaultCause State :=
  if taken then .ok (setPc (getReg a s) s) else advance 2 s

/-- JMP: `pc <- x[a]` (R116). -/
def execJmp (opA : Byte) (s : State) : Host.Outcome State Fault Refusal :=
  commit s do
    let a ← regIndex opA
    return setPc (getReg a s) s

/-- JEQ: jump if `E = 1`; the operand is checked whether or not the jump is taken (R117). -/
def execJeq (opA : Byte) (s : State) : Host.Outcome State Fault Refusal :=
  commit s do
    let a ← regIndex opA
    branchIf s.fl.equal a s

/-- JNE: jump if `E = 0`, which is not "Less or Greater set" (R118). -/
def execJne (opA : Byte) (s : State) : Host.Outcome State Fault Refusal :=
  commit s do
    let a ← regIndex opA
    branchIf (!s.fl.equal) a s

end Sys2Proof.Machine
end

