-- ==== Sys2Proof/Machine/Control.lean ====
section
/-! DEFINITION. HLT (spec/40_execution_loop.md). -/

namespace Sys2Proof.Machine

/-- HLT: `run <- Halted`; `pc` keeps the address of the HLT byte (R76). -/
def execHlt (s : State) : Host.Outcome State Fault Refusal :=
  commit s (.ok (setRun .halted s))

end Sys2Proof.Machine
end

