-- ==== Sys2Proof/Machine/LoadOutput.lean ====
section
/-! DEFINITION. LDI and PRN (spec/41_load_and_output.md). -/

namespace Sys2Proof.Machine

/-- LDI: `x[a] <- imm8` (R80). -/
def execLdi (opA imm8 : Byte) (s : State) : Host.Outcome State Fault Refusal :=
  commit s do
    let a ← regIndex opA
    advance 3 (setReg a imm8 s)

/-- PRN: emit `x[a]` (R82). -/
def execPrn (opA : Byte) (s : State) : Host.Outcome State Fault Refusal :=
  commit s do
    let a ← regIndex opA
    advance 2 (emit (getReg a s) s)

end Sys2Proof.Machine
end

