-- ==== Sys2Proof/Machine/Stack.lean ====
section
/-! DEFINITION. PUSH, POP, CALL, RET (spec/43_stack.md). Statements stand in the order of the spec's pseudocode; a later
read sees an earlier write of the same step (spec/00_scope.md R8), which decides the forms whose operand is register 7. -/

namespace Sys2Proof.Machine

/-- PUSH: decrement `sp`, then store `x[a]` there; `PUSH R7` stores the decremented pointer (R100). -/
def execPush (opA : Byte) (s : State) : Host.Outcome State Fault Refusal :=
  commit s do
    let a ← regIndex opA
    let s1 ← pushByte (getReg a) s
    advance 2 s1

/-- POP: `x[a] <- mem[sp]`, then increment `x[7]`; `POP R7` ends with the popped byte plus 1 (R102). -/
def execPop (opA : Byte) (s : State) : Host.Outcome State Fault Refusal :=
  commit s do
    let a ← regIndex opA
    let v ← stackTop s
    let s1 ← incrementSp (setReg a v s)
    advance 2 s1

/-- CALL: push `pc + 2`, then `pc <- x[a]`, read after the decrement (R104). The step runs CALL only with `pc <= 253`, where
`pc + 2` is a byte (assumption log 13). -/
def execCall (opA : Byte) (s : State) : Host.Outcome State Fault Refusal :=
  commit s do
    let a ← regIndex opA
    let s1 ← pushByte (fun _ => BitVec.ofNat 8 (s.pc.toNat + 2)) s
    return setPc (getReg a s1) s1

/-- RET: `t = mem[sp]`, increment `sp`, `pc <- t` (R106). -/
def execRet (s : State) : Host.Outcome State Fault Refusal :=
  commit s do
    let t ← stackTop s
    let s1 ← incrementSp s
    return setPc t s1

end Sys2Proof.Machine
end

