-- ==== Sys2Proof/Machine/Fetch.lean ====
section
/-! DEFINITION. Fetch, operand read and lookup: the part of the step before the instruction's own rule
(spec/40_execution_loop.md R70 to R72), and where the step fetches from. -/

namespace Sys2Proof.Machine

/-- Read the opcode byte and, for every opcode, both candidate operand bytes; then look the opcode up (R70, R71,
spec/20_memory.md R37). -/
def fetchWith (t : OpcodeTable) (s : State) : Except FaultCause Instr := do
  let opcode ← memRead (s.pc.toNat : Int) s
  let opA ← memRead ((s.pc.toNat : Int) + 1) s
  let opB ← memRead ((s.pc.toNat : Int) + 2) s
  match decodeWith t opcode opA opB with
  | .ok i => .ok i
  | .error (.unknownOpcode b) => .error (.unknownOpcodeError b)

/-- Store bytes at ascending addresses from `a`, up to the top of memory. -/
def storeBytes (m : Memory) (a : Nat) (bytes : List Byte) : Memory :=
  match bytes with
  | [] => m
  | b :: bs => storeBytes (if a < Config.memSize then Memory.write m a b else m) (a + 1) bs

end Sys2Proof.Machine
end

