-- ==== Sys2Proof/Machine/Step.lean ====
section
/-! DEFINITION. The step (spec/40_execution_loop.md R70) and the host's way to place one instruction. -/

namespace Sys2Proof.Machine

/-- One step of the machine with a given opcode table (R56). It is enabled if and only if the machine is Running; Halted and
Faulted have no step, which the outcome `fault` says (R70, R77; DESIGN CHOICE, safe: assumption log 5). A raise during fetch
or lookup takes the fault like any other (R142). -/
def stepWith (t : OpcodeTable) (s : State) : Host.Outcome State Fault Refusal :=
  match s.run with
  | .running =>
    match fetchWith t s with
    | .ok i => exec i s
    | .error c => .next (takeFault c s)
  | .halted => .fault .halted
  | .faulted r => .fault (.faulted r)

/-- One step of this hardware. -/
def step (s : State) : Host.Outcome State Fault Refusal := stepWith opc s

/-- `s` with the instruction whose low `nbits` bits are `w` stored at the program counter; it stands for the load of
spec/70_reset_and_hazards.md R165 (assumption log 15). -/
def State.withFetchWord (s : State) (nbits w : Nat) : State :=
  setMem (storeBytes s.mem s.pc.toNat (tableBytes nbits w)) s

end Sys2Proof.Machine
end

