-- ==== Sys2Proof/Machine/Boundary.lean ====
section
/-! DEFINITION. The block boundary (spec/00_scope.md R7): reset, load image, end of run, and how the host renders what was
emitted. "start" is no act of its own (spec/70_reset_and_hazards.md R164) and "emit" is PRN's (R82). -/

namespace Sys2Proof.Machine

/-- Reset: every piece of state takes its reset value, whatever it was; the only way out of Halted and Faulted (R160). -/
def hostReset (_ : State) : State := State.reset

/-- Load image: `IMAGE[i]` goes to `mem[i]`, nothing else is written; more than 256 bytes and the load is refused
(R165, D19). -/
def loadImage (image : List Byte) (s : State) : Host.Outcome State Fault Refusal :=
  if image.length ≤ Config.memSize then .next (setMem (storeBytes s.mem 0 image) s)
  else .refused (.imageTooLong image.length)

/-- How a run begins: reset, then load (R164). -/
def launch (image : List Byte) : Host.Outcome State Fault Refusal := loadImage image (hostReset State.reset)

/-- The boundary operation "end of run": what the host observes of an ended run, the run state with its fault record and the
output (R75, R168). Each PRN puts its byte into `out` as it commits (R7, R82); whether the host sees `out` grow during the
run or only at its end no source says (R75, R83). That `observe` answers nothing while Running is the model's choice:
DESIGN CHOICE, unsafe, assumption log 24. -/
def observe (s : State) : Option (RunState × List Byte) :=
  match s.run with
  | .running => none
  | r => some (r, s.out)

/-- The host's text of the output: each byte's unsigned decimal numeral on a line of its own (R83). The line terminator is
not stated, so a line is a string without one (assumption log 19). -/
def renderOut (out : List Byte) : List String := out.map fun v => toString v.toNat

end Sys2Proof.Machine
end

