-- ==== Sys2Proof/Safety.lean ====
section
/-! DEFINITION. What counts as a safe run, and the words the claims use. -/

namespace Sys2Proof

open Sys2Proof.Machine

/-- At most one of Less, Greater, Equal is 1 (spec/10_state.md R18). -/
def AtMostOneFlag (f : Flags) : Prop :=
  ¬(f.less = true ∧ f.greater = true) ∧ ¬(f.less = true ∧ f.equal = true) ∧ ¬(f.greater = true ∧ f.equal = true)

/-- Exactly one of them is 1: the flags of a machine that has compared (R18, R26(c)). -/
def ExactlyOneFlag (f : Flags) : Prop :=
  (f.less = true ∨ f.greater = true ∨ f.equal = true) ∧ AtMostOneFlag f

/-- The causes a step of this hardware can record (spec/60_exceptions.md R132 to R135, R137). -/
def LegalCause : FaultCause → Prop
  | .unknownOpcodeError opcode => lookup opc opcode = none
  | .addressError .mem value => value = 256
  | .addressError .reg value => 8 ≤ value ∧ value ≤ 255
  | .addressError .pc value => value = 256
  | .stackError value => value = -1 ∨ value = 256
  | .unsupportedOperationError => False

/-- The invariant of the machine: memory is in canonical form, at most one flag is 1 (R26(c)), and a Faulted machine's record
holds the program counter it stopped at and a cause of the table (R131, R142). -/
structure Inv (s : State) : Prop where
  mem_wf : Memory.wf s.mem
  flags : AtMostOneFlag s.fl
  record : ∀ r, s.run = .faulted r → r.pc = s.pc ∧ LegalCause r.cause

/-- The stack-pointer value a POP of `x[a]` increments: `x[7]` as it stands after the popped byte is written (R102). -/
def popPointer (opA : Byte) (s : State) : Byte :=
  if opA = 7 then Memory.read s.mem (getReg 7 s).toNat else getReg 7 s

/-- The fault the step from a Running state must report, by the order of checks of spec/60_exceptions.md R141, or none. It
is written from that list alone and calls no meaning. -/
def expectedFault (s : State) : Option FaultCause :=
  let pc := s.pc.toNat
  let opcode := Memory.read s.mem pc
  let opA := Memory.read s.mem (pc + 1)
  let opB := Memory.read s.mem (pc + 2)
  if 254 ≤ pc then some (.addressError .mem 256)
  else match lookup opc opcode with
  | none => some (.unknownOpcodeError opcode)
  | some m =>
    if m.format ≠ .z ∧ 8 ≤ opA.toNat then some (.addressError .reg (opA.toNat : Int))
    else if m.format = .rr ∧ 8 ≤ opB.toNat then some (.addressError .reg (opB.toNat : Int))
    else if (m = .push ∨ m = .call) ∧ getReg 7 s = 0 then some (.stackError (-1))
    else if m = .pop ∧ popPointer opA s = 255 then some (.stackError 256)
    else if m = .ret ∧ getReg 7 s = 255 then some (.stackError 256)
    else if m.format.length = 3 ∧ pc = 253 then some (.addressError .pc 256)
    else none

/-- The states of a run: from reset and load, step by step (spec/40_execution_loop.md R75, spec/70_reset_and_hazards.md
R164). -/
inductive Reachable (image : List Byte) : State → Prop where
  | launched {s : State} (h : launch image = .next s) : Reachable image s
  | stepped {s t : State} (hs : Reachable image s) (h : step s = .next t) : Reachable image t

/-- A run that ended well: Halted is the only successful end (R77). -/
def SuccessfulRun (image : List Byte) (s : State) : Prop := Reachable image s ∧ s.run = .halted

/-- The machine is safe in a state when its next step does not fault (R143). -/
def StepsSafely (s : State) : Prop := ∃ t, step s = .next t ∧ ∀ r, t.run ≠ .faulted r

end Sys2Proof
end

