-- ==== Sys2Proof/Certificates/Slice0/Obligations.lean ====
section
/-! DEFINITION. The statements for the provers. A docstring names the rule of spec/ a statement formalises; where the rule
rests on a decision the spec marks as its own (`92_eei_decisions.md`) or on general knowledge, the docstring says so.
In the statements about instructions `opA.toNat = a` says that the operand byte names register `a`; every byte 0..7 does.
Where a hypothesis or a trap is a range check (an operand byte above 7, a stack pointer at its bound, an address above 255),
that the machine checks at all is the spec's own decision D1 (assumption log 3), and that a raise keeps nothing of the
instruction is its decision D3 (assumption log 7). Statements about `exec` hold also of states the step never gives it (not Running, or pc
254 or 255, where the spec speaks of no instruction); that the meanings are total there is the model's own choice
(assumption log 13). -/

open Sys2Proof Sys2Proof.Machine

/-! ### Encoding -/

/-- Decode and encode agree, for EVERY opcode table with distinct bytes (R56 asks no more of it) and every instruction with
every operand byte, ill-formed ones included, whatever two bytes follow it in memory (R50, R57, R60). The machine's own
table is one such table, so nothing rests on the ten bytes from general knowledge. -/
def Obligations.DecodeOfEncodeIsTheInstruction : Prop :=
  ∀ (t : OpcodeTable), t.Distinct → ∀ (i : Instr) (next1 next2 : Byte),
    decodeBytesWith t (encodeWith t i ++ [next1, next2]) = .ok i

/-- The other direction: whatever decodes is the encoding of what it decodes to; the bytes the format has are all there is
to it (R50, R51). -/
def Obligations.EncodeOfDecodeIsTheBytes : Prop :=
  ∀ (t : OpcodeTable) (opcode opA opB : Byte) (i : Instr), decodeWith t opcode opA opB = .ok i →
    encodeWith t i = [opcode, opA, opB].take i.length

/-- The opcode table as R55 prints it: byte and length of each row. Ten of the bytes are from general knowledge (R56, D14;
assumption log 1). -/
def Obligations.OpcodeTableRows : Prop :=
  allMnemonics.map (fun m => (m, (opc m).toNat, m.format.length)) =
    [(.hlt, 0x01, 1), (.ldi, 0x82, 3), (.prn, 0x47, 2), (.add, 0xA0, 3), (.mul, 0xA2, 3), (.cmp, 0xA7, 3),
     (.push, 0x45, 2), (.pop, 0x46, 2), (.call, 0x50, 2), (.ret, 0x11, 1), (.jmp, 0x54, 2), (.jeq, 0x55, 2),
     (.jne, 0x56, 2)] ∧ opc.Distinct

/-- The illegal opcode bytes are exactly the ranges R58 lists, 0x00 among them; which bytes they are rests on the ten bytes
from general knowledge (R56, D14; assumption log 1). -/
def Obligations.IllegalOpcodeBytes : Prop :=
  ∀ b : Byte, lookup opc b = none ↔
    (b.toNat = 0x00 ∨ (0x02 ≤ b.toNat ∧ b.toNat ≤ 0x10) ∨ (0x12 ≤ b.toNat ∧ b.toNat ≤ 0x44) ∨
     (0x48 ≤ b.toNat ∧ b.toNat ≤ 0x4F) ∨ (0x51 ≤ b.toNat ∧ b.toNat ≤ 0x53) ∨ (0x57 ≤ b.toNat ∧ b.toNat ≤ 0x81) ∨
     (0x83 ≤ b.toNat ∧ b.toNat ≤ 0x9F) ∨ b.toNat = 0xA1 ∨ (0xA3 ≤ b.toNat ∧ b.toNat ≤ 0xA6) ∨
     (0xA8 ≤ b.toNat ∧ b.toNat ≤ 0xFF))

/-- Words written out from the spec's encodings decode to the instructions they stand for: the source's own example (R64)
and one word of each other family (R51, R55; the opcode bytes A2, A7, 50, 11, 56 are from general knowledge, assumption
log 1). -/
def Obligations.SpecWordsDecode : Prop :=
  decode 0b10000010 0b00000000 0b00001000 = .ok (.ldi 0 8) ∧
  decode 0b01000111 0b00000000 0b00000001 = .ok (.prn 0) ∧
  decode 0b00000001 0b00000000 0b00000000 = .ok .hlt ∧
  decode 0b10100010 0b00000000 0b00000001 = .ok (.mul 0 1) ∧
  decode 0b10100111 0b00000100 0b11111111 = .ok (.cmp 4 255) ∧
  decode 0b01010000 0b00000001 0b01000110 = .ok (.call 1) ∧
  decode 0b00010001 0b11111111 0b11111111 = .ok .ret ∧
  decode 0b01010110 0b00000101 0b01000111 = .ok (.jne 5) ∧
  decode 0b10100001 0b00000000 0b00000001 = .error (.unknownOpcode 0xA1)

/-! ### The step -/

/-- A step runs the decoded instruction (R70, R72): when the three bytes at the program counter decode to `i`, the step is
exactly `exec i`. Nothing is added around it. It holds for ill-formed instructions too. -/
def Obligations.StepRunsTheDecodedInstruction : Prop :=
  ∀ (s : State) (i : Instr), s.run = .running → s.pc.toNat ≤ 253 →
    decode (Memory.read s.mem s.pc.toNat) (Memory.read s.mem (s.pc.toNat + 1)) (Memory.read s.mem (s.pc.toNat + 2)) = .ok i →
    step s = exec i s

/-- Fetch, decode and dispatch together, for every opcode table with distinct bytes (R56): a Running machine whose memory
holds the encoding of `i` at the program counter runs `i`. -/
def Obligations.StepRunsTheEncodedInstruction : Prop :=
  ∀ (t : OpcodeTable), t.Distinct → ∀ (i : Instr) (s : State), s.run = .running → s.pc.toNat ≤ 253 →
    (∀ k, k < i.length → Memory.read s.mem (s.pc.toNat + k) = (encodeWith t i).getD k 0) →
    stepWith t s = exec i s

/-- At address 254 or 255 every step raises AddressError(mem, 256), whatever the opcode byte is, HLT and illegal bytes
included (R37, R71, R133(a); it rests on the spec's decisions D1 and D16, assumption log 3 and 12). -/
def Obligations.NothingExecutesAt254Or255 : Prop :=
  ∀ s : State, s.run = .running → 254 ≤ s.pc.toNat →
    step s = .next { s with run := .faulted ⟨.addressError .mem 256, s.pc⟩ }

/-- R72, dispatch: a byte of no row raises UnknownOpcodeError with the byte and the program counter and changes nothing
else; a byte of a row hands both operand bytes to that row's instruction; at most one row matches. -/
def Obligations.DispatchFollowsTheTable : Prop :=
  (∀ s : State, s.run = .running → s.pc.toNat ≤ 253 → (∀ m : Mnemonic, opc m ≠ Memory.read s.mem s.pc.toNat) →
    step s = .next { s with run := .faulted ⟨.unknownOpcodeError (Memory.read s.mem s.pc.toNat), s.pc⟩ }) ∧
  (∀ (s : State) (m : Mnemonic), s.run = .running → s.pc.toNat ≤ 253 → opc m = Memory.read s.mem s.pc.toNat →
    step s = exec (m.build (Memory.read s.mem (s.pc.toNat + 1)) (Memory.read s.mem (s.pc.toNat + 2))) s) ∧
  (∀ m n : Mnemonic, opc m = opc n → m = n)

/-- R60: the candidate operand bytes a format does not have are ignored. For a format Z row the step is the same instruction
whatever both bytes are, for a format R row whatever the second is; so they are not range-checked either. -/
def Obligations.UnusedOperandBytesAreIgnored : Prop :=
  ∀ (s : State) (m : Mnemonic), s.run = .running → s.pc.toNat ≤ 253 → opc m = Memory.read s.mem s.pc.toNat →
    (m.format = .z → ∀ any1 any2 : Byte, step s = exec (m.build any1 any2) s) ∧
    (m.format = .r → ∀ any2 : Byte, step s = exec (m.build (Memory.read s.mem (s.pc.toNat + 1)) any2) s)

/-- A step is enabled if and only if the machine is Running (R70, R77), and then it is never refused and never stuck (R78).
That the other outcome is called `fault` is the model's choice (assumption log 5). -/
def Obligations.StepEnabledExactlyWhenRunning : Prop :=
  (∀ s : State, (∃ t, step s = .next t) ↔ s.run = .running) ∧
  (∀ s : State, s.run = .halted → step s = .fault .halted) ∧
  (∀ (s : State) (r : FaultRecord), s.run = .faulted r → step s = .fault (.faulted r))

/-- Every instruction answers a next state from every state: committed, or with its fault taken. R78 says so of the step of a
Running machine only; that the meanings are total on every other state too (not Running, or pc 254 or 255, where CALL's
`pc + 2` is no byte and the model stores it modulo 256) is the model's own choice, DESIGN CHOICE, assumption log 13. -/
def Obligations.EveryInstructionAnswersANextState : Prop :=
  ∀ (i : Instr) (s : State), ∃ t, exec i s = .next t

/-! ### HLT, LDI, PRN -/

/-- R76, HLT: byte 0x01, one byte long; the run state becomes Halted and nothing else changes; at address 254 or 255 it
faults instead; only a committed HLT reaches Halted. -/
def Obligations.HltHalts : Prop :=
  (∀ any1 any2 : Byte, decode 0b00000001 any1 any2 = .ok .hlt) ∧ encode .hlt = [0x01] ∧
  (∀ s : State, exec .hlt s = .next { s with run := .halted }) ∧
  (∀ s : State, s.run = .running → 254 ≤ s.pc.toNat → Memory.read s.mem s.pc.toNat = 0x01 →
    step s = .next { s with run := .faulted ⟨.addressError .mem 256, s.pc⟩ }) ∧
  (∀ s t : State, step s = .next t → t.run = .halted →
    s.pc.toNat ≤ 253 ∧ Memory.read s.mem s.pc.toNat = 0x01 ∧ t = { s with run := .halted })

/-- R80, LDI: byte 0x82, three bytes; any immediate goes unchanged into the named register, register 7 (the stack pointer)
included; a bad register operand or address 253 raises and the register is not written. -/
def Obligations.LdiLoadsTheImmediate : Prop :=
  (∀ opA imm8 : Byte, decode 0b10000010 opA imm8 = .ok (.ldi opA imm8) ∧ encode (.ldi opA imm8) = [0x82, opA, imm8]) ∧
  (∀ (opA imm8 : Byte) (a : RegIx) (s : State), opA.toNat = a → s.pc.toNat ≤ 252 →
    exec (.ldi opA imm8) s = .next { s with x := s.x.set a imm8, pc := s.pc + 3 }) ∧
  (∀ (opA imm8 : Byte) (s : State), 8 ≤ opA.toNat →
    exec (.ldi opA imm8) s = .next { s with run := .faulted ⟨.addressError .reg (opA.toNat : Int), s.pc⟩ }) ∧
  (∀ (opA imm8 : Byte) (s : State), opA.toNat ≤ 7 → s.pc.toNat = 253 →
    exec (.ldi opA imm8) s = .next { s with run := .faulted ⟨.addressError .pc 256, s.pc⟩ })

/-- R82, PRN: byte 0x47, two bytes; the register's byte is appended to the output and the program counter advances by 2
(it cannot fail where an instruction can stand, up to 253); a bad register operand raises and nothing is emitted. -/
def Obligations.PrnEmitsTheRegister : Prop :=
  (∀ opA any2 : Byte, decode 0b01000111 opA any2 = .ok (.prn opA) ∧ encode (.prn opA) = [0x47, opA]) ∧
  (∀ (opA : Byte) (a : RegIx) (s : State), opA.toNat = a → s.pc.toNat ≤ 253 →
    exec (.prn opA) s = .next { s with out := s.out ++ [getReg a s], pc := s.pc + 2 }) ∧
  (∀ (opA : Byte) (s : State), 8 ≤ opA.toNat →
    exec (.prn opA) s = .next { s with run := .faulted ⟨.addressError .reg (opA.toNat : Int), s.pc⟩ })

/-! ### ADD, MUL, CMP -/

/-- R92, ADD: the exact sum reduced modulo 256 goes into register A, `pc` advances by 3, nothing else changes. `a` and `b`
may be the same register. -/
def Obligations.AddCompletes : Prop :=
  ∀ (opA opB : Byte) (a b : RegIx) (s : State), opA.toNat = a → opB.toNat = b → s.pc.toNat ≤ 252 →
    ∃ t, exec (.add opA opB) s = .next t ∧
      (getReg a t).toNat = ((getReg a s).toNat + (getReg b s).toNat) % 256 ∧
      (∀ j, j ≠ a → getReg j t = getReg j s) ∧ t.pc.toNat = s.pc.toNat + 3 ∧
      t.fl = s.fl ∧ t.run = s.run ∧ t.mem = s.mem ∧ t.out = s.out

/-- R93, MUL: the low 8 bits of the exact product go into register A, `pc` advances by 3 (90_conflicts.md C1), nothing else
changes. -/
def Obligations.MulCompletes : Prop :=
  ∀ (opA opB : Byte) (a b : RegIx) (s : State), opA.toNat = a → opB.toNat = b → s.pc.toNat ≤ 252 →
    ∃ t, exec (.mul opA opB) s = .next t ∧
      (getReg a t).toNat = ((getReg a s).toNat * (getReg b s).toNat) % 256 ∧
      (∀ j, j ≠ a → getReg j t = getReg j s) ∧ t.pc.toNat = s.pc.toNat + 3 ∧
      t.fl = s.fl ∧ t.run = s.run ∧ t.mem = s.mem ∧ t.out = s.out

/-- R94, CMP: each flag is written from the unsigned order of the two registers, so exactly one becomes 1; nothing else but
`pc` changes. Which of Less and Greater is which is the spec's decision D7 (assumption log 17). -/
def Obligations.CmpCompletes : Prop :=
  ∀ (opA opB : Byte) (a b : RegIx) (s : State), opA.toNat = a → opB.toNat = b → s.pc.toNat ≤ 252 →
    ∃ t, exec (.cmp opA opB) s = .next t ∧
      (t.fl.less = true ↔ (getReg a s).toNat < (getReg b s).toNat) ∧
      (t.fl.greater = true ↔ (getReg b s).toNat < (getReg a s).toNat) ∧
      (t.fl.equal = true ↔ getReg a s = getReg b s) ∧ ExactlyOneFlag t.fl ∧
      t.pc.toNat = s.pc.toNat + 3 ∧ t.x = s.x ∧ t.run = s.run ∧ t.mem = s.mem ∧ t.out = s.out

/-- R96: after CMP, JEQ jumps and JNE falls through when the values were equal; JEQ falls through and JNE jumps when they
were not. It is said of every later state that still holds the flags CMP left. -/
def Obligations.CompareThenBranch : Prop :=
  ∀ (opA opB opC : Byte) (a b c : RegIx) (s t u : State), opA.toNat = a → opB.toNat = b → opC.toNat = c →
    s.pc.toNat ≤ 252 → exec (.cmp opA opB) s = .next t → u.fl = t.fl → u.pc.toNat ≤ 253 →
    (getReg a s = getReg b s →
      exec (.jeq opC) u = .next { u with pc := getReg c u } ∧ exec (.jne opC) u = .next { u with pc := u.pc + 2 }) ∧
    (getReg a s ≠ getReg b s →
      exec (.jeq opC) u = .next { u with pc := u.pc + 2 } ∧ exec (.jne opC) u = .next { u with pc := getReg c u })

/-- Where ADD, MUL and CMP trap (R92 to R94, R133(b), (c)): a bad `opA` first, then a bad `opB`, then address 253; only the
run state changes. Fail-fast and its order are the spec's decisions D1, D4, D9, D15 (assumption log 3, 8). -/
def Obligations.AluInstructionsTrap : Prop :=
  ∀ (op : Byte → Byte → Instr), (op = .add ∨ op = .mul ∨ op = .cmp) → ∀ (opA opB : Byte) (s : State),
    (8 ≤ opA.toNat →
      exec (op opA opB) s = .next { s with run := .faulted ⟨.addressError .reg (opA.toNat : Int), s.pc⟩ }) ∧
    (opA.toNat ≤ 7 → 8 ≤ opB.toNat →
      exec (op opA opB) s = .next { s with run := .faulted ⟨.addressError .reg (opB.toNat : Int), s.pc⟩ }) ∧
    (opA.toNat ≤ 7 → opB.toNat ≤ 7 → s.pc.toNat = 253 →
      exec (op opA opB) s = .next { s with run := .faulted ⟨.addressError .pc 256, s.pc⟩ })

/-- The ALU is a pure function with the operation set ADD, MUL, CMP (R90); its laws R91(a), (b), (f); MUL gives the same byte
read as signed. The last clause is about the model's own choice: that the model's ALU keeps an arm for any other operation
name, which raises UnsupportedOperationError, is a DESIGN CHOICE (assumption log 21); the hardware's ALU has no such
operation (R90, R95). -/
def Obligations.AluArithmeticLaws : Prop :=
  (∀ a b : Byte, alu .add a b = .ok (.result (a + b)) ∧ alu .mul a b = .ok (.result (a * b)) ∧
    ∃ f, alu .cmp a b = .ok (.flags f)) ∧
  (∀ a b : Byte, alu .mul a b = .ok (.result (BitVec.ofInt 8 (a.toInt * b.toInt)))) ∧
  (∀ a : Byte, alu .add a 255 = .ok (.result (a - 1))) ∧
  (∀ (name : String) (a b : Byte), alu (.other name) a b = .error .unsupportedOperationError)

/-! ### PUSH, POP, CALL, RET -/

/-- R100, PUSH with `sp` not 0: `sp` steps down by one and the register, read after the step, is stored there, so `PUSH R7`
stores the decremented pointer. That order is the spec's decision D8 (assumption log 10). -/
def Obligations.PushCompletes : Prop :=
  ∀ (opA : Byte) (a : RegIx) (s : State), opA.toNat = a → getReg 7 s ≠ 0 → s.pc.toNat ≤ 253 →
    ∃ t, exec (.push opA) s = .next t ∧ getReg 7 t = getReg 7 s - 1 ∧
      Memory.read t.mem (getReg 7 t).toNat = (if a = 7 then getReg 7 s - 1 else getReg a s) ∧
      (∀ b, b ≠ (getReg 7 t).toNat → Memory.read t.mem b = Memory.read s.mem b) ∧
      (∀ j, j ≠ 7 → getReg j t = getReg j s) ∧ t.pc.toNat = s.pc.toNat + 2 ∧
      t.fl = s.fl ∧ t.run = s.run ∧ t.out = s.out

/-- R102, POP: the byte at `sp` goes into the register, then `x[7]`, read after that write, steps up by one; `POP R7` ends
with the popped byte plus 1 (the spec's decision D8, assumption log 10). It completes unless that pointer is 255. -/
def Obligations.PopCompletes : Prop :=
  ∀ (opA : Byte) (a : RegIx) (s : State), opA.toNat = a →
    (a ≠ 7 → getReg 7 s ≠ 255) → (a = 7 → Memory.read s.mem (getReg 7 s).toNat ≠ 255) → s.pc.toNat ≤ 253 →
    ∃ t, exec (.pop opA) s = .next t ∧
      (a ≠ 7 → getReg a t = Memory.read s.mem (getReg 7 s).toNat ∧ getReg 7 t = getReg 7 s + 1) ∧
      (a = 7 → getReg 7 t = Memory.read s.mem (getReg 7 s).toNat + 1) ∧
      (∀ j, j ≠ a → j ≠ 7 → getReg j t = getReg j s) ∧ t.pc.toNat = s.pc.toNat + 2 ∧
      t.fl = s.fl ∧ t.run = s.run ∧ t.mem = s.mem ∧ t.out = s.out

/-- R104, CALL with `sp` not 0: the return address `pc + 2` is stored at the decremented `sp` and control goes to the
register, read after the decrement, so `CALL R7` goes to the cell that holds the return address (the spec's decision D8,
assumption log 10). -/
def Obligations.CallCompletes : Prop :=
  ∀ (opA : Byte) (a : RegIx) (s : State), opA.toNat = a → getReg 7 s ≠ 0 → s.pc.toNat ≤ 253 →
    ∃ t, exec (.call opA) s = .next t ∧ getReg 7 t = getReg 7 s - 1 ∧
      (Memory.read t.mem (getReg 7 t).toNat).toNat = s.pc.toNat + 2 ∧
      (∀ b, b ≠ (getReg 7 t).toNat → Memory.read t.mem b = Memory.read s.mem b) ∧
      t.pc = (if a = 7 then getReg 7 s - 1 else getReg a s) ∧
      (∀ j, j ≠ 7 → getReg j t = getReg j s) ∧ t.fl = s.fl ∧ t.run = s.run ∧ t.out = s.out

/-- R106, RET with `sp` not 255: control goes to the byte at `sp`, whether or not a CALL put it there, and `sp` steps up by
one. -/
def Obligations.RetCompletes : Prop :=
  ∀ s : State, getReg 7 s ≠ 255 →
    exec .ret s = .next { s with pc := Memory.read s.mem (getReg 7 s).toNat, x := s.x.set 7 (getReg 7 s + 1) }

/-- Where the stack instructions trap (R100 to R106, R109, R134): a bad register operand before the stack check, StackError
at the bounds of the pointer; only the run state changes, so a refused PUSH has not moved `sp` and a refused POP has not
written its register. The bound check is the spec's decision D1 (assumption log 3), the order D4 (log 8). -/
def Obligations.StackInstructionsTrap : Prop :=
  (∀ (op : Byte → Instr), (op = .push ∨ op = .pop ∨ op = .call) → ∀ (opA : Byte) (s : State), 8 ≤ opA.toNat →
    exec (op opA) s = .next { s with run := .faulted ⟨.addressError .reg (opA.toNat : Int), s.pc⟩ }) ∧
  (∀ (op : Byte → Instr), (op = .push ∨ op = .call) → ∀ (opA : Byte) (s : State), opA.toNat ≤ 7 → getReg 7 s = 0 →
    exec (op opA) s = .next { s with run := .faulted ⟨.stackError (-1), s.pc⟩ }) ∧
  (∀ (opA : Byte) (s : State), opA.toNat ≤ 6 → getReg 7 s = 255 →
    exec (.pop opA) s = .next { s with run := .faulted ⟨.stackError 256, s.pc⟩ }) ∧
  (∀ s : State, Memory.read s.mem (getReg 7 s).toNat = 255 →
    exec (.pop 7) s = .next { s with run := .faulted ⟨.stackError 256, s.pc⟩ }) ∧
  (∀ s : State, getReg 7 s = 255 → exec .ret s = .next { s with run := .faulted ⟨.stackError 256, s.pc⟩ })

/-- R110: PUSH then POP on the same register restores the register and the stack pointer, for all eight registers,
whatever happened in between as long as it left the pushed cell and the stack pointer alone. -/
def Obligations.PushThenPopRestores : Prop :=
  ∀ (opA : Byte) (a : RegIx) (s : State), opA.toNat = a → getReg 7 s ≠ 0 → s.pc.toNat ≤ 253 →
    ∃ t, exec (.push opA) s = .next t ∧
      ∀ t' : State, getReg 7 t' = getReg 7 t →
        Memory.read t'.mem (getReg 7 t).toNat = Memory.read t.mem (getReg 7 t).toNat → t'.pc.toNat ≤ 253 →
        ∃ u, exec (.pop opA) t' = .next u ∧ getReg a u = getReg a s ∧ getReg 7 u = getReg 7 s

/-- R111: CALL then RET returns to exactly (address of CALL) + 2 with the stack pointer of before the CALL, provided the
subroutine left the stack pointer and the cell of the return address alone. -/
def Obligations.CallThenRetReturns : Prop :=
  ∀ (opA : Byte) (a : RegIx) (s : State), opA.toNat = a → getReg 7 s ≠ 0 → s.pc.toNat ≤ 253 →
    ∃ t, exec (.call opA) s = .next t ∧
      ∀ t' : State, getReg 7 t' = getReg 7 t →
        Memory.read t'.mem (getReg 7 t).toNat = Memory.read t.mem (getReg 7 t).toNat →
        ∃ u, exec .ret t' = .next u ∧ u.pc.toNat = s.pc.toNat + 2 ∧ getReg 7 u = getReg 7 s

/-- R42: a byte that PUSH stores in the cell where the program counter goes next is the next opcode fetched. Here the PUSH of
a register other than 7 stands right below the top of the stack. -/
def Obligations.PushedByteIsFetchedNext : Prop :=
  ∀ (opA : Byte) (a : RegIx) (s : State), s.run = .running → s.pc.toNat ≤ 251 → opA.toNat = a → a ≠ 7 →
    Memory.read s.mem s.pc.toNat = opc .push → Memory.read s.mem (s.pc.toNat + 1) = opA →
    (getReg 7 s).toNat = s.pc.toNat + 3 →
    ∃ t, step s = .next t ∧ t.pc.toNat = s.pc.toNat + 2 ∧ Memory.read t.mem t.pc.toNat = getReg a s ∧
      (getReg a s = opc .hlt → step t = .next { t with run := .halted })

/-! ### JMP, JEQ, JNE -/

/-- R116, JMP: control goes to the register's byte, any of 0..255; nothing else changes. -/
def Obligations.JmpCompletes : Prop :=
  ∀ (opA : Byte) (a : RegIx) (s : State), opA.toNat = a →
    exec (.jmp opA) s = .next { s with pc := getReg a s }

/-- R117, JEQ: jump if Equal is 1, else fall through by 2; exactly one of the two. -/
def Obligations.JeqCompletes : Prop :=
  ∀ (opA : Byte) (a : RegIx) (s : State), opA.toNat = a → s.pc.toNat ≤ 253 →
    exec (.jeq opA) s = .next { s with pc := if s.fl.equal = true then getReg a s else s.pc + 2 }

/-- R118, JNE: jump if Equal is 0, which before the first CMP holds too, else fall through by 2. -/
def Obligations.JneCompletes : Prop :=
  ∀ (opA : Byte) (a : RegIx) (s : State), opA.toNat = a → s.pc.toNat ≤ 253 →
    exec (.jne opA) s = .next { s with pc := if s.fl.equal = false then getReg a s else s.pc + 2 }

/-- Where the branches trap: a bad register operand, whether or not the jump would be taken (R116 to R118, R133(b)). The
check and its moment are the spec's decisions D1 and D9 (assumption log 3, 9). -/
def Obligations.BranchesTrapOnABadOperand : Prop :=
  ∀ (op : Byte → Instr), (op = .jmp ∨ op = .jeq ∨ op = .jne) → ∀ (opA : Byte) (s : State), 8 ≤ opA.toNat →
    exec (op opA) s = .next { s with run := .faulted ⟨.addressError .reg (opA.toNat : Int), s.pc⟩ }

/-- R119: from reset until a CMP commits, JEQ falls through and JNE jumps. It rests on the reset value of the flags, the
spec's own decision D5 (assumption log 2). -/
def Obligations.BranchesBeforeTheFirstCompare : Prop :=
  ∀ (opA : Byte) (a : RegIx) (s : State), s.fl = State.reset.fl → opA.toNat = a → s.pc.toNat ≤ 253 →
    exec (.jeq opA) s = .next { s with pc := s.pc + 2 } ∧ exec (.jne opA) s = .next { s with pc := getReg a s }

/-! ### Frames -/

/-- Frame of LDI, ADD, MUL: whatever next state they answer, every register but the destination, the flags, every byte of
memory and the output are unchanged. -/
def Obligations.FrameOfRegisterWriters : Prop :=
  ∀ (opA opB : Byte) (s t : State),
    (exec (.ldi opA opB) s = .next t ∨ exec (.add opA opB) s = .next t ∨ exec (.mul opA opB) s = .next t) →
    (∀ j : RegIx, opA.toNat ≠ j → getReg j t = getReg j s) ∧ t.fl = s.fl ∧
    (∀ b, Memory.read t.mem b = Memory.read s.mem b) ∧ t.out = s.out ∧
    (t.run = s.run ∨ ∃ c, t.run = .faulted ⟨c, s.pc⟩)

/-- Frame of CMP and PRN: no register and no byte of memory changes; CMP leaves the output alone, PRN the flags. -/
def Obligations.FrameOfCmpAndPrn : Prop :=
  (∀ (opA opB : Byte) (s t : State), exec (.cmp opA opB) s = .next t →
    (∀ j, getReg j t = getReg j s) ∧ (∀ b, Memory.read t.mem b = Memory.read s.mem b) ∧ t.out = s.out ∧
    (t.run = s.run ∨ ∃ c, t.run = .faulted ⟨c, s.pc⟩)) ∧
  (∀ (opA : Byte) (s t : State), exec (.prn opA) s = .next t →
    (∀ j, getReg j t = getReg j s) ∧ (∀ b, Memory.read t.mem b = Memory.read s.mem b) ∧ t.fl = s.fl ∧
    (t.run = s.run ∨ ∃ c, t.run = .faulted ⟨c, s.pc⟩))

/-- Frame of PUSH and CALL: every register but 7, the flags and the output are unchanged, and so is every byte of memory but
the one at the decremented stack pointer, the address the meaning stores to; where the decrement is refused, all of
memory. -/
def Obligations.FrameOfPushAndCall : Prop :=
  ∀ (opA : Byte) (s t : State), (exec (.push opA) s = .next t ∨ exec (.call opA) s = .next t) →
    (∀ j, j ≠ 7 → getReg j t = getReg j s) ∧ t.fl = s.fl ∧ t.out = s.out ∧
    (∀ s1, decrementSp s = .ok s1 → ∀ b : Nat, (b : Int) ≠ spAddress s1 → Memory.read t.mem b = Memory.read s.mem b) ∧
    (∀ c, decrementSp s = .error c → ∀ b, Memory.read t.mem b = Memory.read s.mem b) ∧
    (t.run = s.run ∨ ∃ c, t.run = .faulted ⟨c, s.pc⟩)

/-- Frame of POP and RET: every register but the destination of POP and the stack pointer, the flags, every byte of memory
(the popped cell included) and the output are unchanged. -/
def Obligations.FrameOfPopAndRet : Prop :=
  (∀ (opA : Byte) (s t : State), exec (.pop opA) s = .next t →
    (∀ j : RegIx, opA.toNat ≠ j → j ≠ 7 → getReg j t = getReg j s) ∧ t.fl = s.fl ∧
    (∀ b, Memory.read t.mem b = Memory.read s.mem b) ∧ t.out = s.out ∧
    (t.run = s.run ∨ ∃ c, t.run = .faulted ⟨c, s.pc⟩)) ∧
  (∀ s t : State, exec .ret s = .next t →
    (∀ j, j ≠ 7 → getReg j t = getReg j s) ∧ t.fl = s.fl ∧
    (∀ b, Memory.read t.mem b = Memory.read s.mem b) ∧ t.out = s.out ∧
    (t.run = s.run ∨ ∃ c, t.run = .faulted ⟨c, s.pc⟩))

/-- Frame of JMP, JEQ, JNE and HLT: no register, flag, byte of memory or output changes; HLT does not move the program
counter either. -/
def Obligations.FrameOfBranchesAndHlt : Prop :=
  (∀ (i : Instr) (s t : State), ((∃ opA, i = .jmp opA ∨ i = .jeq opA ∨ i = .jne opA) ∨ i = .hlt) → exec i s = .next t →
    (∀ j, getReg j t = getReg j s) ∧ t.fl = s.fl ∧ (∀ b, Memory.read t.mem b = Memory.read s.mem b) ∧ t.out = s.out) ∧
  (∀ s t : State, exec .hlt s = .next t → t.pc = s.pc)

/-! ### Rules of the whole machine -/

/-- R16: the only instruction that writes the flags is CMP. -/
def Obligations.OnlyCmpWritesFlags : Prop :=
  ∀ (i : Instr) (s t : State), exec i s = .next t → t.fl ≠ s.fl → ∃ opA opB, i = .cmp opA opB

/-- R16, R120: Less and Greater are dead state. Two machines that differ only in them take steps that differ only in
them. -/
def Obligations.LessAndGreaterInfluenceNothing : Prop :=
  ∀ (s t : State) (f : Flags), f.equal = s.fl.equal → step s = .next t →
    ∃ g : Flags, g.equal = t.fl.equal ∧ step { s with fl := f } = .next { t with fl := g }

/-- R31(b), (c): only PUSH and CALL write memory, and each at most the one cell below the stack pointer. -/
def Obligations.OnlyPushAndCallWriteMemory : Prop :=
  ∀ (i : Instr) (s t : State), exec i s = .next t → ∀ b, Memory.read t.mem b ≠ Memory.read s.mem b →
    (∃ opA, i = .push opA ∨ i = .call opA) ∧ b + 1 = (getReg 7 s).toNat

/-- R22, R26(f): the output only grows, by one byte and only when a PRN commits. -/
def Obligations.OutputOnlyGrowsByPrn : Prop :=
  ∀ s t : State, step s = .next t →
    t.out = s.out ∨
      (Memory.read s.mem s.pc.toNat = opc .prn ∧
        ∃ a : RegIx, (Memory.read s.mem (s.pc.toNat + 1)).toNat = a ∧ t.out = s.out ++ [getReg a s])

/-- R142, R143: a step that faults changes nothing but the run state, records the address of the faulting opcode, and no
step follows it. The spec extends the source's rule for unknown opcodes to every fault by its decision D3 (assumption
log 7). That the step after it answers the outcome called `fault`, carrying the record, is the model's own choice for "no
step is enabled", DESIGN CHOICE, assumption log 5. -/
def Obligations.FaultCommitsNothing : Prop :=
  ∀ (s t : State) (r : FaultRecord), step s = .next t → t.run = .faulted r →
    t = { s with run := .faulted r } ∧ r.pc = s.pc ∧ step t = .fault (.faulted r)

/-- R141 with R132 to R134: a step of a Running machine reports exactly the fault that the order of checks gives first, and
faults only then; otherwise it ends Running or Halted. The order is the spec's decision D4 (assumption log 8). -/
def Obligations.FaultsAreThoseOfTheOrder : Prop :=
  ∀ s : State, s.run = .running →
    (∀ c, expectedFault s = some c → step s = .next { s with run := .faulted ⟨c, s.pc⟩ }) ∧
    (expectedFault s = none → ∃ t, step s = .next t ∧ (t.run = .running ∨ t.run = .halted))

/-- R53, R73: an instruction raises AddressError(reg) exactly when it is ill-formed, whatever the state; the check comes
before every other one of the instruction and does not depend on whether the value would be used. That there is a check and
when it is made are the spec's decisions D1 and D9 (assumption log 3, 9). -/
def Obligations.IllFormedExactlyWhenRegisterFault : Prop :=
  ∀ (i : Instr) (s : State), s.run = .running →
    (i.wellFormed = false ↔
      ∃ value : Int, exec i s = .next { s with run := .faulted ⟨.addressError .reg value, s.pc⟩ })

/-- R171(b), (d), (e): what software must respect is enough for a step not to fault. A Running machine whose program counter
is at most 252, whose bytes there decode to a well-formed instruction and whose stack pointer is neither 0 nor 255 steps
safely; only POP R7 needs more, a popped byte other than 255 (R102). -/
def Obligations.SoftwareObligationsSuffice : Prop :=
  ∀ (s : State) (i : Instr), s.run = .running → s.pc.toNat ≤ 252 →
    decode (Memory.read s.mem s.pc.toNat) (Memory.read s.mem (s.pc.toNat + 1)) (Memory.read s.mem (s.pc.toNat + 2)) = .ok i →
    i.wellFormed = true → getReg 7 s ≠ 0 → getReg 7 s ≠ 255 →
    (i = .pop 7 → Memory.read s.mem (getReg 7 s).toNat ≠ 255) → StepsSafely s

/-- R137, R131: the numeric code of each recorded cause. The codes are the spec's own (D10, assumption log 6). -/
def Obligations.FaultCodes : Prop :=
  ∀ (r : FaultRecord),
    (r.code = 1 ↔ ∃ b, r.cause = .unknownOpcodeError b) ∧ (r.code = 2 ↔ ∃ sp v, r.cause = .addressError sp v) ∧
    (r.code = 3 ↔ ∃ v, r.cause = .stackError v) ∧ (r.code = 4 ↔ r.cause = .unsupportedOperationError)

/-- R95, R135: no state makes a step record UnsupportedOperationError. That the model keeps the arm is its own choice
(assumption log 21). -/
def Obligations.UnsupportedOperationIsUnreachable : Prop :=
  ∀ (s t : State) (r : FaultRecord), step s = .next t → t.run = .faulted r → r.cause ≠ .unsupportedOperationError

/-- R19: the transitions of the run state are exactly Running to Halted when an HLT commits and Running to Faulted when a
step raises; a step leaves it Running otherwise. -/
def Obligations.RunStateTransitions : Prop :=
  ∀ s t : State, step s = .next t → s.run = .running ∧
    (t.run = .running ∨ (t.run = .halted ∧ Memory.read s.mem s.pc.toNat = opc .hlt) ∨
      ∃ c, expectedFault s = some c ∧ t.run = .faulted ⟨c, s.pc⟩)

/-! ### Invariants -/

/-- Every step keeps the invariant: canonical memory, at most one flag, a sound fault record (R18, R26, R131). -/
def Obligations.StepKeepsTheInvariant : Prop :=
  ∀ s t : State, Inv s → step s = .next t → Inv t

/-- Reset meets the invariant (R25). -/
def Obligations.ResetMeetsTheInvariant : Prop := Inv State.reset

/-- Every state of every run, for every image the load accepts, meets the invariant; a run that ended well takes no further
step (R26, R75, R77). -/
def Obligations.EveryRunMeetsTheInvariant : Prop :=
  (∀ (image : List Byte) (s : State), Reachable image s → Inv s) ∧
  (∀ (image : List Byte) (s : State), SuccessfulRun image s → Inv s ∧ ∀ t, step s ≠ .next t)

/-- R18, R26(c): once exactly one flag is 1, it stays so; the machine never goes back to no flag. -/
def Obligations.OneFlagStaysOneFlag : Prop :=
  ∀ s t : State, ExactlyOneFlag s.fl → step s = .next t → ExactlyOneFlag t.fl

/-! ### Memory, reset and the boundary -/

/-- R8, R32, R35: a write inside 0..255 changes exactly the addressed cell, a read there has no condition, and an access
outside is not performed but raises AddressError(mem). Fail-fast is the spec's decision D1 (assumption log 3). -/
def Obligations.MemoryAccesses : Prop :=
  (∀ (addr : Int) (v : Byte) (s : State), 0 ≤ addr → addr ≤ 255 →
    ∃ t, memWrite addr v s = .ok t ∧ memRead addr t = .ok v ∧
      (∀ other, other ≠ addr → memRead other t = memRead other s) ∧
      t.x = s.x ∧ t.pc = s.pc ∧ t.fl = s.fl ∧ t.run = s.run ∧ t.out = s.out) ∧
  (∀ (addr : Int) (v : Byte) (s : State), (addr < 0 ∨ 255 < addr) →
    memRead addr s = .error (.addressError .mem addr) ∧ memWrite addr v s = .error (.addressError .mem addr))

/-- R25, R160: what reset leaves, whatever the machine was. The value of the flags is the spec's own decision D5
(assumption log 2), Running its decision D2. -/
def Obligations.ResetValues : Prop :=
  ∀ s : State, hostReset s = State.reset ∧
    (∀ i : RegIx, i ≠ 7 → getReg i (hostReset s) = 0) ∧ getReg 7 (hostReset s) = 0xF4 ∧ (hostReset s).pc = 0 ∧
    (hostReset s).fl = ⟨false, false, false⟩ ∧ (hostReset s).run = .running ∧
    (∀ b, Memory.read (hostReset s).mem b = 0) ∧ (hostReset s).out = []

/-- R161: the entry point is address 0; execution of any launched image begins with the byte at address 0 as an opcode, which
is an instruction of the table or an unknown opcode at address 0. -/
def Obligations.EntryPointIsAddressZero : Prop :=
  ∀ (image : List Byte) (s : State), launch image = .next s → s.pc = 0 ∧
    Memory.read s.mem 0 = image.getD 0 0 ∧
    (∀ m : Mnemonic, opc m = Memory.read s.mem 0 →
      step s = exec (m.build (Memory.read s.mem 1) (Memory.read s.mem 2)) s) ∧
    ((∀ m : Mnemonic, opc m ≠ Memory.read s.mem 0) →
      step s = .next { s with run := .faulted ⟨.unknownOpcodeError (Memory.read s.mem 0), 0⟩ })

/-- R165: the load places the image from address 0 upward and writes nothing else; an image over 256 bytes is refused (the
spec's decision D19, assumption log 16). -/
def Obligations.LoadPlacesTheImage : Prop :=
  (∀ (image : List Byte) (s : State), image.length ≤ 256 →
    ∃ t, loadImage image s = .next t ∧ (∀ k, k < image.length → Memory.read t.mem k = image.getD k 0) ∧
      (∀ k, image.length ≤ k → Memory.read t.mem k = Memory.read s.mem k) ∧
      t.x = s.x ∧ t.pc = s.pc ∧ t.fl = s.fl ∧ t.run = s.run ∧ t.out = s.out) ∧
  (∀ (image : List Byte) (s : State), 256 < image.length → loadImage image s = .refused (.imageTooLong image.length))

/-- The end-of-run observation: of an ended run the run state with its record and the output, as R75 and R168 give the host.
That it answers nothing while the machine is Running is the model's own choice, DESIGN CHOICE, assumption log 24: whether the
host sees `out` grow during the run or only at its end no source says. -/
def Obligations.ObservationOfARun : Prop :=
  ∀ s : State, (observe s = none ↔ s.run = .running) ∧ (s.run ≠ .running → observe s = some (s.run, s.out))
end

