-- ==== Sys2Proof/Laws/Decode.lean ====
section
/-! SUPPORT. Laws of the opcode table, the decoder and the encoder. -/

namespace Sys2Proof

theorem mem_allMnemonics (m : Mnemonic) : m ∈ allMnemonics := by
  cases m <;> decide

/-- What the lookup finds has the byte that was looked up. -/
theorem lookup_some {t : OpcodeTable} {b : Byte} {m : Mnemonic} (h : lookup t b = some m) : t m = b := by
  simpa using List.find?_some h

/-- The lookup finds nothing exactly when no row has the byte. -/
theorem lookup_none {t : OpcodeTable} {b : Byte} : lookup t b = none ↔ ∀ m, t m ≠ b := by
  simp [lookup, mem_allMnemonics]

/-- With distinct bytes the lookup finds the row the byte belongs to. -/
theorem lookup_self {t : OpcodeTable} (h : t.Distinct) (m : Mnemonic) : lookup t (t m) = some m := by
  cases hl : lookup t (t m) with
  | none => exact absurd rfl (lookup_none.mp hl m)
  | some n => rw [h n m (lookup_some hl)]

/-- The table of this hardware has distinct bytes. -/
theorem opc_distinct : opc.Distinct := by
  intro m n
  cases m <;> cases n <;> decide

/-- A row found means the instruction of that row. -/
theorem decodeWith_some {t : OpcodeTable} {o a b : Byte} {m : Mnemonic} (h : lookup t o = some m) :
    decodeWith t o a b = .ok (m.build a b) := by
  rw [decodeWith, h]

/-- No row found means the rejection by name. -/
theorem decodeWith_none {t : OpcodeTable} {o a b : Byte} (h : lookup t o = none) :
    decodeWith t o a b = .error (.unknownOpcode o) := by
  rw [decodeWith, h]

/-- An instruction is built by its own row. -/
theorem build_mnemonic (m : Mnemonic) (a b : Byte) : (m.build a b).mnemonic = m := by
  cases m <;> rfl

end Sys2Proof
end

