-- ==== Sys2Proof/Laws/Memory.lean ====
section
/-! SUPPORT. The laws of memory: a read gives the last byte written, a write leaves every other cell alone, and every
operation keeps the canonical form. -/

namespace Sys2Proof.Machine

theorem Memory.read_erase (m : Memory) (a b : Nat) :
    Memory.read (Memory.erase m a) b = if b = a then Memory.default else Memory.read m b := by
  induction m with
  | nil => simp [Memory.erase, Memory.read]
  | cons c m ih =>
    simp only [Memory.erase] at ih
    by_cases hc : c.1 = a
    · by_cases hb : b = a
      · subst hb
        simpa [Memory.erase, hc] using ih
      · have : ¬ a = b := fun h => hb h.symm
        simp [Memory.erase, Memory.read, hc, ih, hb, this]
    · by_cases hb : b = a
      · subst hb
        simpa [Memory.erase, Memory.read, hc] using ih
      · simp [Memory.erase, Memory.read, hc, ih, hb]

theorem Memory.read_insertCell (m : Memory) (a b : Nat) (v : Byte) (hm : ∀ c ∈ m, c.1 ≠ a) :
    Memory.read (Memory.insertCell m a v) b = if b = a then v else Memory.read m b := by
  induction m with
  | nil => simp [Memory.insertCell, Memory.read, eq_comm]
  | cons c m ih =>
    have hc : c.1 ≠ a := hm c (by simp)
    have ih := ih fun d hd => hm d (List.mem_cons_of_mem _ hd)
    by_cases hlt : a < c.1
    · simp [Memory.insertCell, Memory.read, hlt, @eq_comm _ a b]
    · by_cases hb : b = a
      · subst hb
        simp [Memory.insertCell, Memory.read, hlt, hc, ih]
      · simp [Memory.insertCell, Memory.read, hlt, hb, ih]

theorem Memory.erase_ne (m : Memory) (a : Nat) : ∀ c ∈ Memory.erase m a, c.1 ≠ a := by
  intro c hc
  simpa [Memory.erase] using (List.mem_filter.mp hc).2

/-- A read after a write: the written byte at that address, what was there before everywhere else. It holds of every list,
canonical or not. -/
theorem Memory.read_write (m : Memory) (a b : Nat) (v : Byte) :
    Memory.read (Memory.write m a v) b = if b = a then v else Memory.read m b := by
  unfold Memory.write
  split
  · next h => rw [Memory.read_erase, h]
  · rw [Memory.read_insertCell _ _ _ _ (Memory.erase_ne m a), Memory.read_erase]
    split <;> rfl

@[simp] theorem Memory.read_write_self (m : Memory) (a : Nat) (v : Byte) :
    Memory.read (Memory.write m a v) a = v := by
  simp [Memory.read_write]

theorem Memory.read_write_ne (m : Memory) {a b : Nat} (v : Byte) (h : b ≠ a) :
    Memory.read (Memory.write m a v) b = Memory.read m b := by
  simp [Memory.read_write, h]

theorem Memory.wf_erase {m : Memory} (a : Nat) (h : Memory.wf m) : Memory.wf (Memory.erase m a) :=
  ⟨h.1.filter _, fun c hc => h.2 c (List.mem_filter.mp hc).1⟩

theorem Memory.mem_insertCell {m : Memory} {a : Nat} {v : Byte} {d : Host.Cell}
    (hd : d ∈ Memory.insertCell m a v) : d = (a, v) ∨ d ∈ m := by
  induction m with
  | nil => simpa [Memory.insertCell] using hd
  | cons c m ih =>
    unfold Memory.insertCell at hd
    split at hd
    · simpa using hd
    · rcases List.mem_cons.mp hd with rfl | hd
      · simp
      · rcases ih hd with h | h <;> simp [h]

theorem Memory.wf_insertCell {m : Memory} {a : Nat} {v : Byte} (h : Memory.wf m) (hm : ∀ c ∈ m, c.1 ≠ a)
    (ha : a < Config.memSize) (hv : v ≠ Memory.default) : Memory.wf (Memory.insertCell m a v) := by
  refine ⟨?_, fun d hd => ?_⟩
  · have hp := h.1
    clear h
    induction m with
    | nil => simp [Memory.insertCell]
    | cons c m ih =>
      have hc : c.1 ≠ a := hm c (by simp)
      obtain ⟨h1, h2⟩ := List.pairwise_cons.mp hp
      unfold Memory.insertCell
      split
      · next hlt =>
        refine List.pairwise_cons.mpr ⟨fun d hd => ?_, hp⟩
        rcases List.mem_cons.mp hd with rfl | hd
        · exact hlt
        · exact lt_trans hlt (h1 d hd)
      · next hlt =>
        refine List.pairwise_cons.mpr ⟨fun d hd => ?_, ih (fun d hd => hm d (List.mem_cons_of_mem _ hd)) h2⟩
        rcases Memory.mem_insertCell hd with rfl | hd
        · show c.1 < a
          omega
        · exact h1 d hd
  · rcases Memory.mem_insertCell hd with rfl | hd
    · exact ⟨hv, ha⟩
    · exact h.2 d hd

/-- A write to a cell of the machine keeps the canonical form. -/
theorem Memory.wf_write {m : Memory} {a : Nat} (v : Byte) (h : Memory.wf m) (ha : a < Config.memSize) :
    Memory.wf (Memory.write m a v) := by
  unfold Memory.write
  split
  · exact Memory.wf_erase a h
  · next hv => exact Memory.wf_insertCell (Memory.wf_erase a h) (Memory.erase_ne m a) ha hv

theorem Memory.wf_reset : Memory.wf State.reset.mem := by decide

/-- Storing a run of bytes keeps the canonical form. -/
theorem storeBytes_wf {m : Memory} (a : Nat) (bytes : List Byte) (h : Memory.wf m) :
    Memory.wf (storeBytes m a bytes) := by
  induction bytes generalizing m a with
  | nil => exact h
  | cons b bs ih =>
    unfold storeBytes
    split
    · next ha => exact ih _ (Memory.wf_write b h ha)
    · exact ih _ h

/-- What storing a run of bytes below the top of memory does, cell by cell. -/
theorem read_storeBytes (m : Memory) (a : Nat) (bytes : List Byte) (k : Nat) (h : a + bytes.length ≤ Config.memSize) :
    Memory.read (storeBytes m a bytes) k =
      if a ≤ k ∧ k < a + bytes.length then bytes.getD (k - a) 0 else Memory.read m k := by
  induction bytes generalizing m a with
  | nil => simp [storeBytes]
  | cons b bs ih =>
    simp only [List.length_cons] at h
    unfold storeBytes
    rw [if_pos (by omega), ih _ _ (by omega)]
    by_cases hk : k = a
    · subst hk
      simp
    · by_cases hin : a + 1 ≤ k ∧ k < a + 1 + bs.length
      · rw [if_pos hin, if_pos (by simp only [List.length_cons]; omega)]
        have : k - a = (k - (a + 1)) + 1 := by omega
        simp [this]
      · rw [if_neg hin, if_neg (by simp only [List.length_cons]; omega), Memory.read_write_ne _ _ hk]

end Sys2Proof.Machine
end

