-- ==== Sys2Proof/Laws/State.lean ====
section
/-! SUPPORT. One lemma per field per update of State, true by rfl, and the laws of the register file. No later proof unfolds
a record update. -/

namespace Sys2Proof.Machine

@[simp] theorem setReg_x (i : RegIx) (v : Byte) (s : State) : (setReg i v s).x = s.x.set i v := rfl
@[simp] theorem setReg_pc (i : RegIx) (v : Byte) (s : State) : (setReg i v s).pc = s.pc := rfl
@[simp] theorem setReg_fl (i : RegIx) (v : Byte) (s : State) : (setReg i v s).fl = s.fl := rfl
@[simp] theorem setReg_run (i : RegIx) (v : Byte) (s : State) : (setReg i v s).run = s.run := rfl
@[simp] theorem setReg_mem (i : RegIx) (v : Byte) (s : State) : (setReg i v s).mem = s.mem := rfl
@[simp] theorem setReg_out (i : RegIx) (v : Byte) (s : State) : (setReg i v s).out = s.out := rfl

@[simp] theorem setFlags_x (f : Flags) (s : State) : (setFlags f s).x = s.x := rfl
@[simp] theorem setFlags_pc (f : Flags) (s : State) : (setFlags f s).pc = s.pc := rfl
@[simp] theorem setFlags_fl (f : Flags) (s : State) : (setFlags f s).fl = f := rfl
@[simp] theorem setFlags_run (f : Flags) (s : State) : (setFlags f s).run = s.run := rfl
@[simp] theorem setFlags_mem (f : Flags) (s : State) : (setFlags f s).mem = s.mem := rfl
@[simp] theorem setFlags_out (f : Flags) (s : State) : (setFlags f s).out = s.out := rfl

@[simp] theorem setRun_x (r : RunState) (s : State) : (setRun r s).x = s.x := rfl
@[simp] theorem setRun_pc (r : RunState) (s : State) : (setRun r s).pc = s.pc := rfl
@[simp] theorem setRun_fl (r : RunState) (s : State) : (setRun r s).fl = s.fl := rfl
@[simp] theorem setRun_run (r : RunState) (s : State) : (setRun r s).run = r := rfl
@[simp] theorem setRun_mem (r : RunState) (s : State) : (setRun r s).mem = s.mem := rfl
@[simp] theorem setRun_out (r : RunState) (s : State) : (setRun r s).out = s.out := rfl

@[simp] theorem setPc_x (v : Byte) (s : State) : (setPc v s).x = s.x := rfl
@[simp] theorem setPc_pc (v : Byte) (s : State) : (setPc v s).pc = v := rfl
@[simp] theorem setPc_fl (v : Byte) (s : State) : (setPc v s).fl = s.fl := rfl
@[simp] theorem setPc_run (v : Byte) (s : State) : (setPc v s).run = s.run := rfl
@[simp] theorem setPc_mem (v : Byte) (s : State) : (setPc v s).mem = s.mem := rfl
@[simp] theorem setPc_out (v : Byte) (s : State) : (setPc v s).out = s.out := rfl

@[simp] theorem setMem_x (m : Memory) (s : State) : (setMem m s).x = s.x := rfl
@[simp] theorem setMem_pc (m : Memory) (s : State) : (setMem m s).pc = s.pc := rfl
@[simp] theorem setMem_fl (m : Memory) (s : State) : (setMem m s).fl = s.fl := rfl
@[simp] theorem setMem_run (m : Memory) (s : State) : (setMem m s).run = s.run := rfl
@[simp] theorem setMem_mem (m : Memory) (s : State) : (setMem m s).mem = m := rfl
@[simp] theorem setMem_out (m : Memory) (s : State) : (setMem m s).out = s.out := rfl

@[simp] theorem emit_x (v : Byte) (s : State) : (emit v s).x = s.x := rfl
@[simp] theorem emit_pc (v : Byte) (s : State) : (emit v s).pc = s.pc := rfl
@[simp] theorem emit_fl (v : Byte) (s : State) : (emit v s).fl = s.fl := rfl
@[simp] theorem emit_run (v : Byte) (s : State) : (emit v s).run = s.run := rfl
@[simp] theorem emit_mem (v : Byte) (s : State) : (emit v s).mem = s.mem := rfl
@[simp] theorem emit_out (v : Byte) (s : State) : (emit v s).out = s.out ++ [v] := rfl

@[simp] theorem takeFault_x (c : FaultCause) (s : State) : (takeFault c s).x = s.x := rfl
@[simp] theorem takeFault_pc (c : FaultCause) (s : State) : (takeFault c s).pc = s.pc := rfl
@[simp] theorem takeFault_fl (c : FaultCause) (s : State) : (takeFault c s).fl = s.fl := rfl
@[simp] theorem takeFault_run (c : FaultCause) (s : State) : (takeFault c s).run = .faulted ⟨c, s.pc⟩ := rfl
@[simp] theorem takeFault_mem (c : FaultCause) (s : State) : (takeFault c s).mem = s.mem := rfl
@[simp] theorem takeFault_out (c : FaultCause) (s : State) : (takeFault c s).out = s.out := rfl

/-- The stack pointer is register 7. -/
theorem getSp_eq (s : State) : getSp s = getReg 7 s := rfl

/-- Writing the stack pointer writes register 7. -/
theorem setSp_eq (v : Byte) (s : State) : setSp v s = setReg 7 v s := rfl

@[simp] theorem getReg_setReg_self (i : RegIx) (v : Byte) (s : State) : getReg i (setReg i v s) = v := by
  simp [getReg]

@[simp] theorem getReg_setReg_ne {i j : RegIx} (h : i ≠ j) (v : Byte) (s : State) :
    getReg j (setReg i v s) = getReg j s := by
  have : (i : Nat) ≠ j := fun e => h (Fin.ext e)
  simp [getReg, this]

@[simp] theorem getReg_setFlags (f : Flags) (j : RegIx) (s : State) : getReg j (setFlags f s) = getReg j s := rfl
@[simp] theorem getReg_setRun (r : RunState) (j : RegIx) (s : State) : getReg j (setRun r s) = getReg j s := rfl
@[simp] theorem getReg_setPc (v : Byte) (j : RegIx) (s : State) : getReg j (setPc v s) = getReg j s := rfl
@[simp] theorem getReg_setMem (m : Memory) (j : RegIx) (s : State) : getReg j (setMem m s) = getReg j s := rfl
@[simp] theorem getReg_emit (v : Byte) (j : RegIx) (s : State) : getReg j (emit v s) = getReg j s := rfl
@[simp] theorem getReg_takeFault (c : FaultCause) (j : RegIx) (s : State) : getReg j (takeFault c s) = getReg j s := rfl

/-- Two register files that read alike everywhere are equal. -/
theorem x_ext {s t : State} (h : ∀ j, getReg j t = getReg j s) : t.x = s.x := by
  apply Vector.ext
  intro i hi
  exact h ⟨i, hi⟩

/-- Two states with equal fields are equal. -/
theorem State.ext_fields {s t : State} (hx : t.x = s.x) (hp : t.pc = s.pc) (hf : t.fl = s.fl) (hr : t.run = s.run)
    (hm : t.mem = s.mem) (ho : t.out = s.out) : t = s := by
  cases s; cases t; simp_all

end Sys2Proof.Machine
end

