-- ==== Sys2Proof/Laws/Ops.lean ====
section
/-! SUPPORT. One lemma per shared operation that says everything it can do; proofs cite these instead of unfolding. -/

namespace Sys2Proof.Machine

/-- A memory read inside 0..255. -/
theorem memRead_ok (s : State) {a : Nat} (h : a ≤ 255) : memRead (a : Int) s = .ok (Memory.read s.mem a) := by
  simp only [memRead]
  rw [if_neg (by omega)]
  simp

/-- A memory write inside 0..255. -/
theorem memWrite_ok (v : Byte) (s : State) {a : Nat} (h : a ≤ 255) :
    memWrite (a : Int) v s = .ok (setMem (Memory.write s.mem a v) s) := by
  simp only [memWrite]
  rw [if_neg (by omega)]
  simp

/-- `Reg(op)` on a byte that names a register. -/
theorem regIndex_ok {op : Byte} {a : RegIx} (h : op.toNat = a) : regIndex op = .ok a := by
  have h8 : op.toNat < 8 := by omega
  rw [regIndex, dif_pos h8]
  exact congrArg Except.ok (Fin.ext h)

/-- `Reg(op)` on a byte that names none. -/
theorem regIndex_error {op : Byte} (h : 8 ≤ op.toNat) : regIndex op = .error (.addressError .reg (op.toNat : Int)) := by
  rw [regIndex, dif_neg (by omega)]

/-- `Reg(op)` answers the register whose number is the byte, or AddressError(reg) above 7. -/
theorem regIndex_cases (op : Byte) :
    (∃ a : RegIx, op.toNat = a ∧ regIndex op = .ok a) ∨
    (8 ≤ op.toNat ∧ regIndex op = .error (.addressError .reg (op.toNat : Int))) := by
  rcases Nat.lt_or_ge op.toNat 8 with h | h
  · exact .inl ⟨⟨op.toNat, h⟩, rfl, regIndex_ok rfl⟩
  · exact .inr ⟨h, regIndex_error h⟩

/-- Both operands of format RR name registers. -/
theorem regPair_ok {opA opB : Byte} {a b : RegIx} (ha : opA.toNat = a) (hb : opB.toNat = b) :
    regPair opA opB = .ok (a, b) := by
  rw [regPair, regIndex_ok ha, regIndex_ok hb]
  rfl

/-- A bad `opA` is reported, whatever `opB` is. -/
theorem regPair_errorA {opA opB : Byte} (ha : 8 ≤ opA.toNat) :
    regPair opA opB = .error (.addressError .reg (opA.toNat : Int)) := by
  rw [regPair, regIndex_error ha]
  rfl

/-- A bad `opB` is reported after a good `opA`. -/
theorem regPair_errorB {opA opB : Byte} (ha : opA.toNat < 8) (hb : 8 ≤ opB.toNat) :
    regPair opA opB = .error (.addressError .reg (opB.toNat : Int)) := by
  rw [regPair, regIndex_ok (a := ⟨opA.toNat, ha⟩) rfl, regIndex_error hb]
  rfl

/-- `Advance(n)` below the top of memory. -/
theorem advance_ok {n : Nat} {s : State} (h : s.pc.toNat + n ≤ 255) :
    advance n s = .ok (setPc (BitVec.ofNat 8 (s.pc.toNat + n)) s) := by
  rw [advance, if_neg (by omega)]

/-- `Advance(n)` past the top of memory. -/
theorem advance_error {n : Nat} {s : State} (h : 255 < s.pc.toNat + n) :
    advance n s = .error (.addressError .pc ((s.pc.toNat + n : Nat) : Int)) := by
  rw [advance, if_pos h]

/-- `Advance(n)` answers the state with the advanced program counter, or AddressError(pc). -/
theorem advance_cases (n : Nat) (s : State) :
    (s.pc.toNat + n ≤ 255 ∧ advance n s = .ok (setPc (BitVec.ofNat 8 (s.pc.toNat + n)) s)) ∨
    (255 < s.pc.toNat + n ∧ advance n s = .error (.addressError .pc ((s.pc.toNat + n : Nat) : Int))) := by
  rcases Nat.lt_or_ge 255 (s.pc.toNat + n) with h | h
  · exact .inr ⟨h, advance_error h⟩
  · exact .inl ⟨h, advance_ok h⟩

/-- The value of an advanced program counter. -/
theorem pc_ofNat_toNat {p : Byte} {n : Nat} (h : p.toNat + n ≤ 255) :
    (BitVec.ofNat 8 (p.toNat + n)).toNat = p.toNat + n := by
  rw [BitVec.toNat_ofNat]
  exact Nat.mod_eq_of_lt (by omega)

/-- The advanced program counter as a sum of bytes. -/
theorem pc_ofNat (p : Byte) (n : Nat) : BitVec.ofNat 8 (p.toNat + n) = p + BitVec.ofNat 8 n := by
  apply BitVec.eq_of_toNat_eq
  simp [BitVec.toNat_add]

/-- The decrement of a stack pointer that is not 0. -/
theorem decrementSp_ok {s : State} (h : getSp s ≠ 0) : decrementSp s = .ok (setSp (getSp s - 1) s) := by
  have h0 : (getSp s).toNat ≠ 0 := fun e => h (BitVec.eq_of_toNat_eq (by simpa using e))
  have hv : BitVec.ofInt 8 (((getSp s).toNat : Int) - 1) = getSp s - 1 := by
    apply BitVec.eq_of_toNat_eq
    simp [BitVec.toNat_ofInt, BitVec.toNat_sub]
    omega
  simp only [decrementSp]
  rw [if_neg (by omega), hv]

/-- The decrement of a stack pointer that is 0. -/
theorem decrementSp_error {s : State} (h : getSp s = 0) : decrementSp s = .error (.stackError (-1)) := by
  simp [decrementSp, h]

/-- The increment of a stack pointer that is not 255. -/
theorem incrementSp_ok {s : State} (h : getSp s ≠ 255) : incrementSp s = .ok (setSp (getSp s + 1) s) := by
  have h0 : (getSp s).toNat ≠ 255 := fun e => h (BitVec.eq_of_toNat_eq (by simpa using e))
  have hl : (getSp s).toNat < 256 := (getSp s).isLt
  have hv : BitVec.ofInt 8 (((getSp s).toNat : Int) + 1) = getSp s + 1 := by
    apply BitVec.eq_of_toNat_eq
    simp [BitVec.toNat_ofInt, BitVec.toNat_add]
    omega
  simp only [incrementSp]
  rw [if_neg (by omega), hv]

/-- The increment of a stack pointer that is 255. -/
theorem incrementSp_error {s : State} (h : getSp s = 255) : incrementSp s = .error (.stackError 256) := by
  simp [incrementSp, h]

/-- The read of a pop never fails. -/
theorem stackTop_ok (s : State) : stackTop s = .ok (Memory.read s.mem (getSp s).toNat) := by
  have := (getSp s).isLt
  exact memRead_ok s (by omega)

/-- A push below the bound: the pointer steps down by one, then the value, read after the step, is stored there. -/
theorem pushByte_ok {value : State → Byte} {s : State} (h : getSp s ≠ 0) :
    pushByte value s = .ok (setMem (Memory.write s.mem (getSp s - 1).toNat (value (setSp (getSp s - 1) s)))
      (setSp (getSp s - 1) s)) := by
  have hl := (getSp s - 1).isLt
  have hsp : spAddress (setSp (getSp s - 1) s) = ((getSp s - 1).toNat : Int) := by
    simp [spAddress, getSp_eq, setSp_eq]
  rw [pushByte, decrementSp_ok h]
  show memWrite (spAddress (setSp (getSp s - 1) s)) _ _ = _
  rw [hsp, memWrite_ok _ _ (by omega)]
  rfl

/-- A push at the bound raises StackError(-1). -/
theorem pushByte_error {value : State → Byte} {s : State} (h : getSp s = 0) :
    pushByte value s = .error (.stackError (-1)) := by
  rw [pushByte, decrementSp_error h]
  rfl

/-- Everything the end of a step can answer: a next state, with the work kept or with the fault taken. -/
theorem commit_next {s t : State} {r : Except FaultCause State} :
    commit s r = .next t ↔ r = .ok t ∨ ∃ c, r = .error c ∧ t = takeFault c s := by
  cases r <;> simp [commit, eq_comm]

/-- The end of a step is always a next state. -/
theorem commit_total (s : State) (r : Except FaultCause State) : ∃ t, commit s r = .next t := by
  cases r
  · exact ⟨_, rfl⟩
  · exact ⟨_, rfl⟩

@[simp] theorem commit_ok (s t : State) : commit s (.ok t) = .next t := rfl

@[simp] theorem commit_error (s : State) (c : FaultCause) : commit s (.error c) = .next (takeFault c s) := rfl

/-- An ALU instruction whose operands name registers: the operation, the write, the advance. -/
theorem aluInstr_ok {op : AluOp} {opA opB : Byte} {a b : RegIx} (ha : opA.toNat = a) (hb : opB.toNat = b)
    (s : State) {r : AluResult} (hr : alu op (getReg a s) (getReg b s) = .ok r) :
    aluInstr op opA opB s = advance 3 (writeAluResult a r s) := by
  rw [aluInstr, regPair_ok ha hb]
  show (alu op (getReg a s) (getReg b s) >>= fun r => advance 3 (writeAluResult a r s)) = _
  rw [hr]
  rfl

/-- An ALU instruction with an operand that names no register: `opA` is reported first. -/
theorem aluInstr_error {op : AluOp} {opA opB : Byte} {c : FaultCause} (s : State) (h : regPair opA opB = .error c) :
    aluInstr op opA opB s = .error c := by
  rw [aluInstr, h]
  rfl

@[simp] theorem writeAluResult_pc (a : RegIx) (r : AluResult) (s : State) : (writeAluResult a r s).pc = s.pc := by
  cases r <;> rfl

/-- A conditional branch that is taken. -/
theorem branchIf_true (a : RegIx) (s : State) : branchIf true a s = .ok (setPc (getReg a s) s) := rfl

/-- A conditional branch that falls through. -/
theorem branchIf_false (a : RegIx) (s : State) : branchIf false a s = advance 2 s := rfl

end Sys2Proof.Machine
end

