-- ==== Sys2Proof/Laws/Step.lean ====
section
/-! SUPPORT. What fetch and the step can do, said once. -/

namespace Sys2Proof.Machine

/-- Fetch where both candidate operand cells exist: the three bytes at the program counter, decoded. -/
theorem fetchWith_low {t : OpcodeTable} {s : State} (h : s.pc.toNat ≤ 253) :
    fetchWith t s =
      match decodeWith t (Memory.read s.mem s.pc.toNat) (Memory.read s.mem (s.pc.toNat + 1))
        (Memory.read s.mem (s.pc.toNat + 2)) with
      | .ok i => .ok i
      | .error (.unknownOpcode b) => .error (.unknownOpcodeError b) := by
  have h1 : ((s.pc.toNat : Int) + 1) = ((s.pc.toNat + 1 : Nat) : Int) := by simp
  have h2 : ((s.pc.toNat : Int) + 2) = ((s.pc.toNat + 2 : Nat) : Int) := by simp
  rw [fetchWith, h1, h2, memRead_ok s (by omega : s.pc.toNat ≤ 255), memRead_ok s (by omega : s.pc.toNat + 1 ≤ 255),
    memRead_ok s (by omega : s.pc.toNat + 2 ≤ 255)]
  rfl

/-- Fetch at address 254 or 255: a candidate operand read is refused. -/
theorem fetchWith_high {t : OpcodeTable} {s : State} (h : 254 ≤ s.pc.toNat) :
    fetchWith t s = .error (.addressError .mem 256) := by
  have hl := s.pc.isLt
  have h1 : ((s.pc.toNat : Int) + 1) = ((s.pc.toNat + 1 : Nat) : Int) := by simp
  have h0 := memRead_ok s (by omega : s.pc.toNat ≤ 255)
  rcases Nat.lt_or_ge s.pc.toNat 255 with h5 | h5
  · have h254 : s.pc.toNat = 254 := by omega
    rw [fetchWith, h0, h1, memRead_ok s (by omega : s.pc.toNat + 1 ≤ 255), h254]
    rfl
  · have h255 : s.pc.toNat = 255 := by omega
    rw [fetchWith, h0, h1, h255]
    rfl

/-- The step of a running machine whose fetch succeeds. -/
theorem stepWith_ok {t : OpcodeTable} {s : State} {i : Instr} (hr : s.run = .running) (hf : fetchWith t s = .ok i) :
    stepWith t s = exec i s := by
  rw [stepWith, hr]
  simp only [hf]

/-- The step of a running machine whose fetch raises. -/
theorem stepWith_error {t : OpcodeTable} {s : State} {c : FaultCause} (hr : s.run = .running)
    (hf : fetchWith t s = .error c) : stepWith t s = .next (takeFault c s) := by
  rw [stepWith, hr]
  simp only [hf]

/-- Everything a step that answers a next state can be: the machine was Running, and either fetch or lookup raised and the
fault was taken, or three bytes were decoded and the instruction answered that state. -/
theorem step_next {s t : State} (h : step s = .next t) :
    s.run = .running ∧
      ((254 ≤ s.pc.toNat ∧ t = takeFault (.addressError .mem 256) s) ∨
       (s.pc.toNat ≤ 253 ∧ lookup opc (Memory.read s.mem s.pc.toNat) = none ∧
          t = takeFault (.unknownOpcodeError (Memory.read s.mem s.pc.toNat)) s) ∨
       (s.pc.toNat ≤ 253 ∧ ∃ m, lookup opc (Memory.read s.mem s.pc.toNat) = some m ∧
          exec (m.build (Memory.read s.mem (s.pc.toNat + 1)) (Memory.read s.mem (s.pc.toNat + 2))) s = .next t)) := by
  cases hr : s.run with
  | halted => simp [step, stepWith, hr] at h
  | faulted r => simp [step, stepWith, hr] at h
  | running =>
    refine ⟨rfl, ?_⟩
    rcases Nat.lt_or_ge 253 s.pc.toNat with hp | hp
    · rw [step, stepWith_error hr (fetchWith_high hp)] at h
      exact .inl ⟨hp, (Host.Outcome.next.inj h).symm⟩
    · cases hl : lookup opc (Memory.read s.mem s.pc.toNat) with
      | none =>
        have hf := fetchWith_low (t := opc) hp
        rw [decodeWith_none hl] at hf
        rw [step, stepWith_error hr hf] at h
        exact .inr (.inl ⟨hp, rfl, (Host.Outcome.next.inj h).symm⟩)
      | some m =>
        have hf := fetchWith_low (t := opc) hp
        rw [decodeWith_some hl] at hf
        rw [step, stepWith_ok hr hf] at h
        exact .inr (.inr ⟨hp, m, rfl, h⟩)

end Sys2Proof.Machine
end

