-- ==== Sys2Proof/Laws/Exec.lean ====
section
/-! SUPPORT. Each meaning after its operand checks: what is left when the operands name registers, and the fault when one
names none. -/

namespace Sys2Proof.Machine

variable {opA opB : Byte} {a b : RegIx}

theorem execLdi_named (imm8 : Byte) (s : State) (ha : opA.toNat = a) :
    execLdi opA imm8 s = commit s (advance 3 (setReg a imm8 s)) := by
  rw [execLdi, regIndex_ok ha]
  rfl

theorem execLdi_unnamed (imm8 : Byte) (s : State) (h : 8 ≤ opA.toNat) :
    execLdi opA imm8 s = .next (takeFault (.addressError .reg (opA.toNat : Int)) s) := by
  rw [execLdi, regIndex_error h]
  rfl

theorem execPrn_named (s : State) (ha : opA.toNat = a) :
    execPrn opA s = commit s (advance 2 (emit (getReg a s) s)) := by
  rw [execPrn, regIndex_ok ha]
  rfl

theorem execPrn_unnamed (s : State) (h : 8 ≤ opA.toNat) :
    execPrn opA s = .next (takeFault (.addressError .reg (opA.toNat : Int)) s) := by
  rw [execPrn, regIndex_error h]
  rfl

theorem execAdd_named (s : State) (ha : opA.toNat = a) (hb : opB.toNat = b) :
    execAdd opA opB s =
      commit s (advance 3 (setReg a (BitVec.ofNat 8 ((getReg a s).toNat + (getReg b s).toNat)) s)) := by
  rw [execAdd, aluInstr_ok ha hb s rfl]
  rfl

theorem execMul_named (s : State) (ha : opA.toNat = a) (hb : opB.toNat = b) :
    execMul opA opB s =
      commit s (advance 3 (setReg a (BitVec.ofNat 8 ((getReg a s).toNat * (getReg b s).toNat)) s)) := by
  rw [execMul, aluInstr_ok ha hb s rfl]
  rfl

theorem execCmp_named (s : State) (ha : opA.toNat = a) (hb : opB.toNat = b) :
    execCmp opA opB s = commit s (advance 3 (setFlags (compareFlags (getReg a s) (getReg b s)) s)) := by
  rw [execCmp, aluInstr_ok ha hb s rfl]
  rfl

/-- Every ALU instruction, when its operands do not both name registers. -/
theorem commit_aluInstr_error (op : AluOp) {c : FaultCause} (s : State) (h : regPair opA opB = .error c) :
    commit s (aluInstr op opA opB s) = .next (takeFault c s) := by
  rw [aluInstr_error s h, commit_error]

theorem execPush_named (s : State) (ha : opA.toNat = a) :
    execPush opA s = commit s (pushByte (getReg a) s >>= advance 2) := by
  rw [execPush, regIndex_ok ha]
  rfl

theorem execPush_unnamed (s : State) (h : 8 ≤ opA.toNat) :
    execPush opA s = .next (takeFault (.addressError .reg (opA.toNat : Int)) s) := by
  rw [execPush, regIndex_error h]
  rfl

theorem execPop_named (s : State) (ha : opA.toNat = a) :
    execPop opA s =
      commit s (incrementSp (setReg a (Memory.read s.mem (getSp s).toNat) s) >>= advance 2) := by
  rw [execPop, regIndex_ok ha, stackTop_ok]
  rfl

theorem execPop_unnamed (s : State) (h : 8 ≤ opA.toNat) :
    execPop opA s = .next (takeFault (.addressError .reg (opA.toNat : Int)) s) := by
  rw [execPop, regIndex_error h]
  rfl

theorem execCall_named (s : State) (ha : opA.toNat = a) :
    execCall opA s = commit s (pushByte (fun _ => BitVec.ofNat 8 (s.pc.toNat + 2)) s >>= fun s1 =>
      .ok (setPc (getReg a s1) s1)) := by
  rw [execCall, regIndex_ok ha]
  rfl

theorem execCall_unnamed (s : State) (h : 8 ≤ opA.toNat) :
    execCall opA s = .next (takeFault (.addressError .reg (opA.toNat : Int)) s) := by
  rw [execCall, regIndex_error h]
  rfl

theorem execRet_eq (s : State) :
    execRet s = commit s (incrementSp s >>= fun s1 => .ok (setPc (Memory.read s.mem (getSp s).toNat) s1)) := by
  rw [execRet, stackTop_ok]
  rfl

theorem execJmp_named (s : State) (ha : opA.toNat = a) : execJmp opA s = .next (setPc (getReg a s) s) := by
  rw [execJmp, regIndex_ok ha]
  rfl

theorem execJmp_unnamed (s : State) (h : 8 ≤ opA.toNat) :
    execJmp opA s = .next (takeFault (.addressError .reg (opA.toNat : Int)) s) := by
  rw [execJmp, regIndex_error h]
  rfl

theorem execJeq_named (s : State) (ha : opA.toNat = a) :
    execJeq opA s = commit s (branchIf s.fl.equal a s) := by
  rw [execJeq, regIndex_ok ha]
  rfl

theorem execJeq_unnamed (s : State) (h : 8 ≤ opA.toNat) :
    execJeq opA s = .next (takeFault (.addressError .reg (opA.toNat : Int)) s) := by
  rw [execJeq, regIndex_error h]
  rfl

theorem execJne_named (s : State) (ha : opA.toNat = a) :
    execJne opA s = commit s (branchIf (!s.fl.equal) a s) := by
  rw [execJne, regIndex_ok ha]
  rfl

theorem execJne_unnamed (s : State) (h : 8 ≤ opA.toNat) :
    execJne opA s = .next (takeFault (.addressError .reg (opA.toNat : Int)) s) := by
  rw [execJne, regIndex_error h]
  rfl

end Sys2Proof.Machine
end

