-- ==== Sys2Proof/Laws/Effect.lean ====
section
/-! SUPPORT. Said once: everything an instruction can do. `Effect i s t` lists the committed cases, `Raisable s c` the causes
an instruction can raise in `s`; `exec_next` says that a next state is one or the other. -/

namespace Sys2Proof.Machine

/-- The causes an instruction can raise. -/
inductive Raisable (s : State) : FaultCause → Prop where
  | reg {op : Byte} (h : 8 ≤ op.toNat) : Raisable s (.addressError .reg (op.toNat : Int))
  | pc {n : Nat} (hn : n ≤ 3) (h : 255 < s.pc.toNat + n) : Raisable s (.addressError .pc ((s.pc.toNat + n : Nat) : Int))
  | stackLow : Raisable s (.stackError (-1))
  | stackHigh : Raisable s (.stackError 256)

/-- The committed cases of the instructions. -/
inductive Effect (s : State) : Instr → State → Prop where
  | hlt : Effect s .hlt (setRun .halted s)
  | ldi {opA imm8 : Byte} {a : RegIx} (ha : opA.toNat = a) (hp : s.pc.toNat + 3 ≤ 255) :
      Effect s (.ldi opA imm8) (setPc (BitVec.ofNat 8 (s.pc.toNat + 3)) (setReg a imm8 s))
  | prn {opA : Byte} {a : RegIx} (ha : opA.toNat = a) (hp : s.pc.toNat + 2 ≤ 255) :
      Effect s (.prn opA) (setPc (BitVec.ofNat 8 (s.pc.toNat + 2)) (emit (getReg a s) s))
  | add {opA opB : Byte} {a b : RegIx} (ha : opA.toNat = a) (hb : opB.toNat = b) (hp : s.pc.toNat + 3 ≤ 255) :
      Effect s (.add opA opB) (setPc (BitVec.ofNat 8 (s.pc.toNat + 3))
        (setReg a (BitVec.ofNat 8 ((getReg a s).toNat + (getReg b s).toNat)) s))
  | mul {opA opB : Byte} {a b : RegIx} (ha : opA.toNat = a) (hb : opB.toNat = b) (hp : s.pc.toNat + 3 ≤ 255) :
      Effect s (.mul opA opB) (setPc (BitVec.ofNat 8 (s.pc.toNat + 3))
        (setReg a (BitVec.ofNat 8 ((getReg a s).toNat * (getReg b s).toNat)) s))
  | cmp {opA opB : Byte} {a b : RegIx} (ha : opA.toNat = a) (hb : opB.toNat = b) (hp : s.pc.toNat + 3 ≤ 255) :
      Effect s (.cmp opA opB) (setPc (BitVec.ofNat 8 (s.pc.toNat + 3))
        (setFlags (compareFlags (getReg a s) (getReg b s)) s))
  | push {opA : Byte} {a : RegIx} (ha : opA.toNat = a) (hs : getSp s ≠ 0) (hp : s.pc.toNat + 2 ≤ 255) :
      Effect s (.push opA) (setPc (BitVec.ofNat 8 (s.pc.toNat + 2))
        (setMem (Memory.write s.mem (getSp s - 1).toNat (getReg a (setSp (getSp s - 1) s))) (setSp (getSp s - 1) s)))
  | pop {opA : Byte} {a : RegIx} {v : Byte} (ha : opA.toNat = a) (hv : v = Memory.read s.mem (getSp s).toNat)
      (hs : getSp (setReg a v s) ≠ 255) (hp : s.pc.toNat + 2 ≤ 255) :
      Effect s (.pop opA) (setPc (BitVec.ofNat 8 (s.pc.toNat + 2))
        (setSp (getSp (setReg a v s) + 1) (setReg a v s)))
  | call {opA : Byte} {a : RegIx} (ha : opA.toNat = a) (hs : getSp s ≠ 0) :
      Effect s (.call opA) (setPc (getReg a (setSp (getSp s - 1) s))
        (setMem (Memory.write s.mem (getSp s - 1).toNat (BitVec.ofNat 8 (s.pc.toNat + 2))) (setSp (getSp s - 1) s)))
  | ret (hs : getSp s ≠ 255) :
      Effect s .ret (setPc (Memory.read s.mem (getSp s).toNat) (setSp (getSp s + 1) s))
  | jmp {opA : Byte} {a : RegIx} (ha : opA.toNat = a) : Effect s (.jmp opA) (setPc (getReg a s) s)
  | jeqTaken {opA : Byte} {a : RegIx} (ha : opA.toNat = a) (he : s.fl.equal = true) :
      Effect s (.jeq opA) (setPc (getReg a s) s)
  | jeqFall {opA : Byte} (he : s.fl.equal = false) (hp : s.pc.toNat + 2 ≤ 255) :
      Effect s (.jeq opA) (setPc (BitVec.ofNat 8 (s.pc.toNat + 2)) s)
  | jneTaken {opA : Byte} {a : RegIx} (ha : opA.toNat = a) (he : s.fl.equal = false) :
      Effect s (.jne opA) (setPc (getReg a s) s)
  | jneFall {opA : Byte} (he : s.fl.equal = true) (hp : s.pc.toNat + 2 ≤ 255) :
      Effect s (.jne opA) (setPc (BitVec.ofNat 8 (s.pc.toNat + 2)) s)

/-- What the last `Advance` of an instruction answers. -/
theorem commit_advance_next {s u t : State} {n : Nat} (hn : n ≤ 3)
    (h : commit s (advance n u) = .next t) (hu : u.pc = s.pc) :
    (∃ c, Raisable s c ∧ t = takeFault c s) ∨
    (s.pc.toNat + n ≤ 255 ∧ t = setPc (BitVec.ofNat 8 (s.pc.toNat + n)) u) := by
  rcases advance_cases n u with ⟨hp, e⟩ | ⟨hp, e⟩ <;> rw [hu] at hp e <;> rw [e] at h
  · exact .inr ⟨hp, (Host.Outcome.next.inj h).symm⟩
  · exact .inl ⟨_, .pc hn hp, (Host.Outcome.next.inj h).symm⟩

theorem raised_reg {s t : State} {op : Byte} (h8 : 8 ≤ op.toNat)
    (h : (.next (takeFault (.addressError .reg (op.toNat : Int)) s) : Host.Outcome State Fault Refusal) = .next t) :
    ∃ c, Raisable s c ∧ t = takeFault c s :=
  ⟨_, .reg h8, (Host.Outcome.next.inj h).symm⟩

/-- The operand check of format RR: both registers, or the fault of the first bad one. -/
theorem regPair_cases (opA opB : Byte) :
    (∃ a b : RegIx, opA.toNat = a ∧ opB.toNat = b) ∨
    ∃ op : Byte, 8 ≤ op.toNat ∧ regPair opA opB = .error (.addressError .reg (op.toNat : Int)) := by
  rcases regIndex_cases opA with ⟨a, ha, -⟩ | ⟨ha, -⟩
  · rcases regIndex_cases opB with ⟨b, hb, -⟩ | ⟨hb, -⟩
    · exact .inl ⟨a, b, ha, hb⟩
    · exact .inr ⟨opB, hb, regPair_errorB (by omega) hb⟩
  · exact .inr ⟨opA, ha, regPair_errorA ha⟩

theorem execPush_next {opA : Byte} {s t : State} (h : execPush opA s = .next t) :
    (∃ c, Raisable s c ∧ t = takeFault c s) ∨ Effect s (.push opA) t := by
  rcases regIndex_cases opA with ⟨a, ha, -⟩ | ⟨h8, -⟩
  · rw [execPush_named s ha] at h
    by_cases hs : getSp s = 0
    · rw [pushByte_error hs] at h
      exact .inl ⟨_, .stackLow, (Host.Outcome.next.inj h).symm⟩
    · rw [pushByte_ok hs] at h
      change commit s (advance 2 _) = _ at h
      rcases commit_advance_next (n := 2) (by omega) h rfl with hc | ⟨hp, rfl⟩
      · exact .inl hc
      · exact .inr (.push ha hs hp)
  · rw [execPush_unnamed s h8] at h
    exact .inl (raised_reg h8 h)

theorem execPop_next {opA : Byte} {s t : State} (h : execPop opA s = .next t) :
    (∃ c, Raisable s c ∧ t = takeFault c s) ∨ Effect s (.pop opA) t := by
  rcases regIndex_cases opA with ⟨a, ha, -⟩ | ⟨h8, -⟩
  · rw [execPop_named s ha] at h
    by_cases hs : getSp (setReg a (Memory.read s.mem (getSp s).toNat) s) = 255
    · rw [incrementSp_error hs] at h
      exact .inl ⟨_, .stackHigh, (Host.Outcome.next.inj h).symm⟩
    · rw [incrementSp_ok hs] at h
      change commit s (advance 2 _) = _ at h
      rcases commit_advance_next (n := 2) (by omega) h rfl with hc | ⟨hp, rfl⟩
      · exact .inl hc
      · exact .inr (.pop ha rfl hs hp)
  · rw [execPop_unnamed s h8] at h
    exact .inl (raised_reg h8 h)

theorem execCall_next {opA : Byte} {s t : State} (h : execCall opA s = .next t) :
    (∃ c, Raisable s c ∧ t = takeFault c s) ∨ Effect s (.call opA) t := by
  rcases regIndex_cases opA with ⟨a, ha, -⟩ | ⟨h8, -⟩
  · rw [execCall_named s ha] at h
    by_cases hs : getSp s = 0
    · rw [pushByte_error hs] at h
      exact .inl ⟨_, .stackLow, (Host.Outcome.next.inj h).symm⟩
    · rw [pushByte_ok hs] at h
      obtain rfl := Host.Outcome.next.inj h
      exact .inr (.call ha hs)
  · rw [execCall_unnamed s h8] at h
    exact .inl (raised_reg h8 h)

theorem execRet_next {s t : State} (h : execRet s = .next t) :
    (∃ c, Raisable s c ∧ t = takeFault c s) ∨ Effect s .ret t := by
  rw [execRet_eq] at h
  by_cases hs : getSp s = 255
  · rw [incrementSp_error hs] at h
    exact .inl ⟨_, .stackHigh, (Host.Outcome.next.inj h).symm⟩
  · rw [incrementSp_ok hs] at h
    obtain rfl := Host.Outcome.next.inj h
    exact .inr (.ret hs)

theorem execJeq_next {opA : Byte} {s t : State} (h : execJeq opA s = .next t) :
    (∃ c, Raisable s c ∧ t = takeFault c s) ∨ Effect s (.jeq opA) t := by
  rcases regIndex_cases opA with ⟨a, ha, -⟩ | ⟨h8, -⟩
  · rw [execJeq_named s ha] at h
    cases he : s.fl.equal with
    | true =>
      rw [he] at h
      obtain rfl := Host.Outcome.next.inj h
      exact .inr (.jeqTaken ha he)
    | false =>
      rw [he, branchIf_false] at h
      rcases commit_advance_next (n := 2) (by omega) h rfl with hc | ⟨hp, rfl⟩
      · exact .inl hc
      · exact .inr (.jeqFall he hp)
  · rw [execJeq_unnamed s h8] at h
    exact .inl (raised_reg h8 h)

theorem execJne_next {opA : Byte} {s t : State} (h : execJne opA s = .next t) :
    (∃ c, Raisable s c ∧ t = takeFault c s) ∨ Effect s (.jne opA) t := by
  rcases regIndex_cases opA with ⟨a, ha, -⟩ | ⟨h8, -⟩
  · rw [execJne_named s ha] at h
    cases he : s.fl.equal with
    | false =>
      rw [he] at h
      obtain rfl := Host.Outcome.next.inj h
      exact .inr (.jneTaken ha he)
    | true =>
      rw [he, Bool.not_true, branchIf_false] at h
      rcases commit_advance_next (n := 2) (by omega) h rfl with hc | ⟨hp, rfl⟩
      · exact .inl hc
      · exact .inr (.jneFall he hp)
  · rw [execJne_unnamed s h8] at h
    exact .inl (raised_reg h8 h)

/-- Everything an instruction can do: its effect, or the fault of one of its checks with nothing else changed. -/
theorem exec_next {i : Instr} {s t : State} (h : exec i s = .next t) :
    (∃ c, Raisable s c ∧ t = takeFault c s) ∨ Effect s i t := by
  cases i with
  | hlt =>
    obtain rfl := Host.Outcome.next.inj h
    exact .inr .hlt
  | ldi opA imm8 =>
    rcases regIndex_cases opA with ⟨a, ha, -⟩ | ⟨h8, -⟩
    · have h : commit s _ = _ := (execLdi_named imm8 s ha).symm.trans h
      rcases commit_advance_next (n := 3) (by omega) h rfl with hc | ⟨hp, rfl⟩
      · exact .inl hc
      · exact .inr (.ldi ha hp)
    · exact .inl (raised_reg h8 ((execLdi_unnamed imm8 s h8).symm.trans h))
  | prn opA =>
    rcases regIndex_cases opA with ⟨a, ha, -⟩ | ⟨h8, -⟩
    · have h : commit s _ = _ := (execPrn_named s ha).symm.trans h
      rcases commit_advance_next (n := 2) (by omega) h rfl with hc | ⟨hp, rfl⟩
      · exact .inl hc
      · exact .inr (.prn ha hp)
    · exact .inl (raised_reg h8 ((execPrn_unnamed s h8).symm.trans h))
  | add opA opB =>
    rcases regPair_cases opA opB with ⟨a, b, ha, hb⟩ | ⟨op, h8, he⟩
    · have h : commit s _ = _ := (execAdd_named s ha hb).symm.trans h
      rcases commit_advance_next (n := 3) (by omega) h rfl with hc | ⟨hp, rfl⟩
      · exact .inl hc
      · exact .inr (.add ha hb hp)
    · exact .inl (raised_reg h8 ((commit_aluInstr_error .add s he).symm.trans h))
  | mul opA opB =>
    rcases regPair_cases opA opB with ⟨a, b, ha, hb⟩ | ⟨op, h8, he⟩
    · have h : commit s _ = _ := (execMul_named s ha hb).symm.trans h
      rcases commit_advance_next (n := 3) (by omega) h rfl with hc | ⟨hp, rfl⟩
      · exact .inl hc
      · exact .inr (.mul ha hb hp)
    · exact .inl (raised_reg h8 ((commit_aluInstr_error .mul s he).symm.trans h))
  | cmp opA opB =>
    rcases regPair_cases opA opB with ⟨a, b, ha, hb⟩ | ⟨op, h8, he⟩
    · have h : commit s _ = _ := (execCmp_named s ha hb).symm.trans h
      rcases commit_advance_next (n := 3) (by omega) h rfl with hc | ⟨hp, rfl⟩
      · exact .inl hc
      · exact .inr (.cmp ha hb hp)
    · exact .inl (raised_reg h8 ((commit_aluInstr_error .cmp s he).symm.trans h))
  | push opA => exact execPush_next h
  | pop opA => exact execPop_next h
  | call opA => exact execCall_next h
  | ret => exact execRet_next h
  | jmp opA =>
    rcases regIndex_cases opA with ⟨a, ha, -⟩ | ⟨h8, -⟩
    · obtain rfl := Host.Outcome.next.inj ((execJmp_named s ha).symm.trans h)
      exact .inr (.jmp ha)
    · exact .inl (raised_reg h8 ((execJmp_unnamed s h8).symm.trans h))
  | jeq opA => exact execJeq_next h
  | jne opA => exact execJne_next h

end Sys2Proof.Machine
end

