-- ==== Sys2Proof/Laws/PerInstr.lean ====
section
/-! SUPPORT. Statements for all instructions, made per instruction: family EncodedForm, the encoded form of an instruction
(spec/30_encoding.md R50, R51): as many bytes as its row's length, opcode byte first, and rebuilt from its operand bytes. -/

namespace Sys2Proof.Laws.EncodedForm

/-- The encoding has the length of the row, begins with the row's byte, and its operand bytes rebuild the instruction. -/
def Statement (i : Instr) : Prop :=
  (encode i).length = i.length ∧ (encode i).head? = some (opc i.mnemonic) ∧
    i.mnemonic.build (i.operands.getD 0 0) (i.operands.getD 1 0) = i

theorem hlt : Statement .hlt := ⟨rfl, rfl, rfl⟩
theorem ldi (opA imm8 : Byte) : Statement (.ldi opA imm8) := ⟨rfl, rfl, rfl⟩
theorem prn (opA : Byte) : Statement (.prn opA) := ⟨rfl, rfl, rfl⟩
theorem add (opA opB : Byte) : Statement (.add opA opB) := ⟨rfl, rfl, rfl⟩
theorem mul (opA opB : Byte) : Statement (.mul opA opB) := ⟨rfl, rfl, rfl⟩
theorem cmp (opA opB : Byte) : Statement (.cmp opA opB) := ⟨rfl, rfl, rfl⟩
theorem push (opA : Byte) : Statement (.push opA) := ⟨rfl, rfl, rfl⟩
theorem pop (opA : Byte) : Statement (.pop opA) := ⟨rfl, rfl, rfl⟩
theorem call (opA : Byte) : Statement (.call opA) := ⟨rfl, rfl, rfl⟩
theorem ret : Statement .ret := ⟨rfl, rfl, rfl⟩
theorem jmp (opA : Byte) : Statement (.jmp opA) := ⟨rfl, rfl, rfl⟩
theorem jeq (opA : Byte) : Statement (.jeq opA) := ⟨rfl, rfl, rfl⟩
theorem jne (opA : Byte) : Statement (.jne opA) := ⟨rfl, rfl, rfl⟩

end Sys2Proof.Laws.EncodedForm
end

