-- ==== Sys2Proof/Tests/Slice0.lean ====
section
/-! SUPPORT. The model's own tests. Expected results come from the spec's encodings (spec/30_encoding.md R51, R55, R64), from
its vectors (spec/95_test_vectors.md, named by their ids) and from its rules. -/

namespace Sys2Proof.Tests

open Sys2Proof Sys2Proof.Machine

/-! ### Helpers -/

/-- The reset state with a program counter and bytes stored there. -/
def placed (pc : Byte) (bytes : List Byte) : State :=
  setMem (storeBytes [] pc.toNat bytes) (setPc pc State.reset)

/-- The next state of a step, if there is one. -/
def after (s : State) : Option State :=
  match step s with
  | .next t => some t
  | _ => none

/-- A view of the next state. -/
def sees {α : Type} (view : State → α) (s : State) : Option α := (after s).map view

/-! ### Well-formedness: an ill-formed term for each check -/

theorem test_wf_ldi_refused : Instr.wellFormed (.ldi 8 0) = false := by decide
theorem test_wf_prn_refused : Instr.wellFormed (.prn 9) = false := by decide
theorem test_wf_add_refusedA : Instr.wellFormed (.add 8 0) = false := by decide
theorem test_wf_add_refusedB : Instr.wellFormed (.add 0 255) = false := by decide
theorem test_wf_mul_refusedA : Instr.wellFormed (.mul 8 0) = false := by decide
theorem test_wf_mul_refusedB : Instr.wellFormed (.mul 0 8) = false := by decide
theorem test_wf_cmp_refusedA : Instr.wellFormed (.cmp 128 0) = false := by decide
theorem test_wf_cmp_refusedB : Instr.wellFormed (.cmp 0 8) = false := by decide
theorem test_wf_push_refused : Instr.wellFormed (.push 8) = false := by decide
theorem test_wf_pop_refused : Instr.wellFormed (.pop 8) = false := by decide
theorem test_wf_call_refused : Instr.wellFormed (.call 8) = false := by decide
theorem test_wf_jmp_refused : Instr.wellFormed (.jmp 8) = false := by decide
theorem test_wf_jeq_refused : Instr.wellFormed (.jeq 8) = false := by decide
theorem test_wf_jne_refused : Instr.wellFormed (.jne 8) = false := by decide
theorem test_wf_accepts : Instr.wellFormed (.ldi 7 255) = true ∧ Instr.wellFormed (.add 0 7) = true ∧
    Instr.wellFormed .hlt = true ∧ Instr.wellFormed .ret = true := by decide

/-! ### Decoding: a word written out from the spec's encoding for every constructor (R51, R55, R64) -/

theorem test_decode_hlt : decode 0b00000001 0 0 = .ok .hlt := by decide
theorem test_decode_ldi : decode 0b10000010 0b00000000 0b00001000 = .ok (.ldi 0 8) := by decide
theorem test_decode_prn : decode 0b01000111 0b00000000 0b00000001 = .ok (.prn 0) := by decide
theorem test_decode_add : decode 0b10100000 0b00000011 0b00000100 = .ok (.add 3 4) := by decide
theorem test_decode_mul : decode 0b10100010 0b00000000 0b00000001 = .ok (.mul 0 1) := by decide
theorem test_decode_cmp : decode 0b10100111 0b00000000 0b00000010 = .ok (.cmp 0 2) := by decide
theorem test_decode_push : decode 0b01000101 0b00000000 0b01010000 = .ok (.push 0) := by decide
theorem test_decode_pop : decode 0b01000110 0b00000010 0b01000111 = .ok (.pop 2) := by decide
theorem test_decode_call : decode 0b01010000 0b00000001 0b01000110 = .ok (.call 1) := by decide
theorem test_decode_ret : decode 0b00010001 0 0 = .ok .ret := by decide
theorem test_decode_jmp : decode 0b01010100 0b00000000 0 = .ok (.jmp 0) := by decide
theorem test_decode_jeq : decode 0b01010101 0b00000010 0b01000111 = .ok (.jeq 2) := by decide
theorem test_decode_jne : decode 0b01010110 0b00000101 0b01000111 = .ok (.jne 5) := by decide
theorem test_decode_zero_is_illegal : decode 0 0 0 = .error (.unknownOpcode 0) := by decide
theorem test_encode_orders_operands : encode (.add 3 4) = [0xA0, 3, 4] ∧ encode (.ldi 0 8) = [0x82, 0, 8] := by decide
theorem test_table_word_ldi : decodeTableWord 24 0x080082 = some (.ldi 0 8) := by decide
theorem test_table_word_short : decodeTableWord 8 0xFFA0 = some (.add 0 0) := by decide

/-! ### One step each -/

/-- TS1: 0x00 is illegal. -/
theorem test_step_unknown_opcode :
    sees (fun t => (t.run, t.pc)) State.reset = some (.faulted ⟨.unknownOpcodeError 0, 0⟩, 0) := by decide

/-- TS5: at 255 the operand read is refused before the lookup. -/
theorem test_step_top_priority :
    sees (·.run) (placed 255 [0xFF]) = some (.faulted ⟨.addressError .mem 256, 255⟩) := by decide

/-- TS8: no step when Halted. -/
theorem test_step_halted : after (setRun .halted State.reset) = none := by decide

/-- The host's placed instruction is the one the next step runs. -/
theorem test_step_placed_word : sees (fun t => (getReg 0 t, t.pc)) (State.reset.withFetchWord 24 0x080082) = some (8, 3) := by
  decide

/-- TS6. -/
theorem test_hlt_at_253 : sees (fun t => (t.run, t.pc)) (placed 253 [1]) = some (.halted, 253) := by decide

/-- TS3. -/
theorem test_hlt_at_254 :
    sees (·.run) (placed 254 [1]) = some (.faulted ⟨.addressError .mem 256, 254⟩) := by decide

/-- TL2: register 7 is writable. -/
theorem test_ldi_sp : sees (fun t => (getSp t, t.pc)) (placed 0 [0x82, 7, 0]) = some (0, 3) := by decide

/-- TL5: at 253 the register is not written. -/
theorem test_ldi_at_253 :
    sees (fun t => (getReg 0 t, t.run)) (placed 253 [0x82, 0, 9]) = some (0, .faulted ⟨.addressError .pc 256, 253⟩) := by decide

/-- TP2. -/
theorem test_prn_sp : sees (fun t => (t.out, t.pc)) (placed 0 [0x47, 7]) = some ([244], 2) := by decide

/-- TP3. -/
theorem test_prn_bad_operand :
    sees (fun t => (t.out, t.run)) (placed 0 [0x47, 9]) = some ([], .faulted ⟨.addressError .reg 9, 0⟩) := by decide

/-- TA1. -/
theorem test_add_wraps :
    sees (fun t => (getReg 0 t, getReg 1 t, t.pc)) (setReg 0 250 (setReg 1 10 (placed 0 [0xA0, 0, 1]))) = some (4, 10, 3) := by
  decide

/-- TA7: `opA` is reported first. -/
theorem test_add_bad_operands :
    sees (·.run) (placed 0 [0xA0, 9, 8]) = some (.faulted ⟨.addressError .reg 9, 0⟩) := by decide

/-- TM3. -/
theorem test_mul_low_byte :
    sees (fun t => (getReg 0 t, t.pc)) (setReg 0 255 (setReg 1 255 (placed 0 [0xA2, 0, 1]))) = some (1, 3) := by decide

/-- TM4: the same register twice. -/
theorem test_mul_same_register :
    sees (fun t => (getReg 3 t, t.pc)) (setReg 3 12 (placed 0 [0xA2, 3, 3])) = some (144, 3) := by decide

/-- TC3: unsigned. -/
theorem test_cmp_unsigned :
    sees (·.fl) (setReg 0 128 (setReg 1 127 (placed 0 [0xA7, 0, 1]))) = some ⟨false, true, false⟩ := by decide

/-- TC6: the old flag is cleared. -/
theorem test_cmp_overwrites :
    sees (·.fl) (setFlags ⟨false, false, true⟩ (setReg 0 1 (setReg 1 2 (placed 0 [0xA7, 0, 1])))) =
      some ⟨true, false, false⟩ := by decide

/-- TU2: `PUSH R7` stores the decremented pointer. -/
theorem test_push_sp :
    sees (fun t => (getSp t, Memory.read t.mem 0xF3, t.pc)) (placed 0 [0x45, 7]) = some (0xF3, 0xF3, 2) := by decide

/-- TU3: no wrap-around write. -/
theorem test_push_at_zero :
    sees (fun t => (getSp t, Memory.read t.mem 255, t.run)) (setSp 0 (placed 3 [0x45, 0])) =
      some (0, 0, .faulted ⟨.stackError (-1), 3⟩) := by decide

/-- TO4: `POP R7` ends with the popped byte plus 1. -/
theorem test_pop_sp :
    sees (fun t => (getSp t, t.pc)) (setSp 0xF3 (setMem (Memory.write (placed 0 [0x46, 7]).mem 0xF3 0x20) (placed 0 [0x46, 7]))) =
      some (0x21, 2) := by decide

/-- TO3: a refused POP has not written its register. -/
theorem test_pop_at_top :
    sees (fun t => (getReg 0 t, getSp t, t.run)) (setSp 255 (setReg 0 1 (placed 3 [0x46, 0]))) =
      some (1, 255, .faulted ⟨.stackError 256, 3⟩) := by decide

/-- TK1. -/
theorem test_call :
    sees (fun t => (getSp t, Memory.read t.mem 0xF2, t.pc)) (setSp 0xF3 (setReg 1 17 (placed 8 [0x50, 1]))) =
      some (0xF2, 10, 17) := by decide

/-- TK3: `CALL R7` goes to the cell that holds the return address. -/
theorem test_call_sp :
    sees (fun t => (getSp t, Memory.read t.mem 0xF3, t.pc)) (placed 0 [0x50, 7]) = some (0xF3, 2, 0xF3) := by decide

/-- TR3: nothing pushed. -/
theorem test_ret_unpushed : sees (fun t => (getSp t, t.pc)) (placed 20 [0x11]) = some (0xF5, 0) := by decide

/-- TR2. -/
theorem test_ret_at_top :
    sees (fun t => (t.pc, t.run)) (setSp 255 (placed 20 [0x11])) = some (20, .faulted ⟨.stackError 256, 20⟩) := by decide

/-- TJ5. -/
theorem test_jmp_sp : sees (·.pc) (placed 0 [0x54, 7]) = some 0xF4 := by decide

/-- TJ3. -/
theorem test_jmp_bad_operand : sees (·.run) (placed 0 [0x54, 8]) = some (.faulted ⟨.addressError .reg 8, 0⟩) := by decide

/-- TE1. -/
theorem test_jeq_taken :
    sees (·.pc) (setFlags ⟨false, false, true⟩ (setReg 2 20 (placed 12 [0x55, 2]))) = some 20 := by decide

/-- TE5: the operand is checked although the jump is not taken. -/
theorem test_jeq_bad_operand :
    sees (·.run) (setFlags ⟨true, false, false⟩ (placed 0 [0x55, 9])) = some (.faulted ⟨.addressError .reg 9, 0⟩) := by decide

/-- TN4: before the first CMP it jumps. -/
theorem test_jne_before_cmp : sees (·.pc) (setReg 5 18 (placed 27 [0x56, 5])) = some 18 := by decide

/-- TN3. -/
theorem test_jne_falls :
    sees (·.pc) (setFlags ⟨false, false, true⟩ (setReg 5 18 (placed 27 [0x56, 5]))) = some 29 := by decide

/-- Memory lists no cell that holds 0, so writing 0 back gives equal data. -/
theorem test_memory_canonical : Memory.write (Memory.write [] 5 7) 5 0 = [] := by decide

/-- The byte view of the flags, L bit 2, G bit 1, E bit 0 (R17). -/
theorem test_flags_byte : Flags.byte ⟨true, false, false⟩ = 4 ∧ Flags.byte ⟨false, true, false⟩ = 2 ∧
    Flags.byte ⟨false, false, true⟩ = 1 := by decide

/-- S5: 8 is printed as "8" (R83). -/
theorem test_render : renderOut [8, 27] = ["8", "27"] := by decide

/-! ### Witnesses: for each obligation with hypotheses, a concrete instance that meets them -/

theorem test_witness_DecodeOfEncodeIsTheInstruction : opc.Distinct := opc_distinct

theorem test_witness_EncodeOfDecodeIsTheBytes : decodeWith opc 0x82 0 8 = .ok (.ldi 0 8) := by decide

theorem test_witness_StepRunsTheDecodedInstruction : (placed 253 [0x54, 7]).run = .running ∧
    (placed 253 [0x54, 7]).pc.toNat ≤ 253 ∧ decode (Memory.read (placed 253 [0x54, 7]).mem 253)
      (Memory.read (placed 253 [0x54, 7]).mem 254) (Memory.read (placed 253 [0x54, 7]).mem 255) = .ok (.jmp 7) := by decide

theorem test_witness_StepRunsTheEncodedInstruction : (placed 253 [0x82, 0, 9]).run = .running ∧
    (placed 253 [0x82, 0, 9]).pc.toNat ≤ 253 ∧ (∀ k, k < (Instr.ldi 0 9).length →
      Memory.read (placed 253 [0x82, 0, 9]).mem (253 + k) = (encodeWith opc (.ldi 0 9)).getD k 0) := by decide

theorem test_witness_NothingExecutesAt254Or255 : (placed 254 [1]).run = .running ∧ 254 ≤ (placed 254 [1]).pc.toNat ∧
    (placed 255 [1]).run = .running ∧ 254 ≤ (placed 255 [1]).pc.toNat := by decide

/-- A byte of no row: opc takes the 13 values of R55 only. -/
theorem test_witness_DispatchFollowsTheTable_unknown : (placed 253 [0]).run = .running ∧ (placed 253 [0]).pc.toNat ≤ 253 ∧
    ∀ m : Mnemonic, opc m ≠ Memory.read (placed 253 [0]).mem (placed 253 [0]).pc.toNat :=
  ⟨rfl, by decide, fun m => by cases m <;> decide⟩

theorem test_witness_DispatchFollowsTheTable_known : (placed 253 [0xA0]).run = .running ∧
    (placed 253 [0xA0]).pc.toNat ≤ 253 ∧ opc .add = Memory.read (placed 253 [0xA0]).mem (placed 253 [0xA0]).pc.toNat := by decide

theorem test_witness_UnusedOperandBytesAreIgnored : (placed 253 [1]).run = .running ∧ (placed 253 [1]).pc.toNat ≤ 253 ∧
    opc .hlt = Memory.read (placed 253 [1]).mem (placed 253 [1]).pc.toNat ∧ Mnemonic.format .hlt = .z ∧
    opc .prn = Memory.read (placed 253 [0x47]).mem (placed 253 [0x47]).pc.toNat ∧ Mnemonic.format .prn = .r := by decide

theorem test_witness_StepEnabledExactlyWhenRunning : State.reset.run = .running ∧
    (setRun .halted State.reset).run = .halted ∧
    (setRun (.faulted ⟨.stackError 256, 0⟩) State.reset).run = .faulted ⟨.stackError 256, 0⟩ := by decide

theorem test_witness_HltHalts : (placed 255 [1]).run = .running ∧ 254 ≤ (placed 255 [1]).pc.toNat ∧
    Memory.read (placed 255 [1]).mem (placed 255 [1]).pc.toNat = 0x01 ∧
    after (placed 253 [1]) = some (setRun .halted (placed 253 [1])) := by decide

/-- Where the clauses meet: operand 7 and 8, address 252 and 253. -/
theorem test_witness_LdiLoadsTheImmediate : (7 : Byte).toNat = ((7 : RegIx) : Nat) ∧ (placed 252 []).pc.toNat ≤ 252 ∧
    8 ≤ (8 : Byte).toNat ∧ (7 : Byte).toNat ≤ 7 ∧ (placed 253 []).pc.toNat = 253 := by decide

theorem test_witness_PrnEmitsTheRegister : (0 : Byte).toNat = ((0 : RegIx) : Nat) ∧ (placed 253 []).pc.toNat ≤ 253 ∧
    8 ≤ (8 : Byte).toNat := by decide

/-- Also the witness of MulCompletes and CmpCompletes, whose hypotheses are the same. -/
theorem test_witness_AddCompletes : (7 : Byte).toNat = ((7 : RegIx) : Nat) ∧ (0 : Byte).toNat = ((0 : RegIx) : Nat) ∧
    (placed 252 []).pc.toNat ≤ 252 := by decide

/-- Both cases: equal values (registers 0 and 1 after reset) and different ones (registers 0 and 7). -/
theorem test_witness_CompareThenBranch :
    sees (·.fl) (placed 252 [0xA7, 0, 1]) = some ⟨false, false, true⟩ ∧ getReg 0 (placed 252 []) = getReg 1 (placed 252 []) ∧
    sees (·.fl) (placed 252 [0xA7, 0, 7]) = some ⟨true, false, false⟩ ∧ getReg 0 (placed 252 []) ≠ getReg 7 (placed 252 []) ∧
    (placed 253 []).pc.toNat ≤ 253 := by decide

/-- Operands 7 and 8, address 253. -/
theorem test_witness_AluInstructionsTrap : 8 ≤ (8 : Byte).toNat ∧ (7 : Byte).toNat ≤ 7 ∧ 8 ≤ (255 : Byte).toNat ∧
    (placed 253 []).pc.toNat = 253 := by decide

/-- The lowest stack pointer that may push; also the witness of CallCompletes, PushThenPopRestores and
CallThenRetReturns. -/
theorem test_witness_PushCompletes : (7 : Byte).toNat = ((7 : RegIx) : Nat) ∧ getReg 7 (setSp 1 (placed 253 [])) ≠ 0 ∧
    (setSp 1 (placed 253 [])).pc.toNat ≤ 253 := by decide

/-- The highest stack pointer that may pop, for a register other than 7, and the highest popped byte for register 7. -/
theorem test_witness_PopCompletes : (0 : Byte).toNat = ((0 : RegIx) : Nat) ∧ getReg 7 (setSp 254 (placed 253 [])) ≠ 255 ∧
    (setSp 254 (placed 253 [])).pc.toNat ≤ 253 ∧ (7 : Byte).toNat = ((7 : RegIx) : Nat) ∧
    Memory.read (placed 0xF4 [254]).mem (getReg 7 (placed 0xF4 [254])).toNat ≠ 255 := by decide

theorem test_witness_RetCompletes : getReg 7 (setSp 254 State.reset) ≠ 255 := by decide

/-- The bounds: operand 8, pointer 0, pointer 255, popped byte 255. -/
theorem test_witness_StackInstructionsTrap : 8 ≤ (8 : Byte).toNat ∧ (7 : Byte).toNat ≤ 7 ∧
    getReg 7 (setSp 0 State.reset) = 0 ∧ (6 : Byte).toNat ≤ 6 ∧ getReg 7 (setSp 255 State.reset) = 255 ∧
    Memory.read (placed 0xF4 [255]).mem (getReg 7 (placed 0xF4 [255])).toNat = 255 := by decide

/-- PUSH R7 and then POP R7 with nothing in between: the state after the PUSH itself leaves the cell and the pointer
alone. -/
theorem test_witness_PushThenPopRestores : sees (fun t => (getSp t, decide (t.pc.toNat ≤ 253))) (placed 251 [0x45, 7]) =
    some (0xF3, true) := by decide

/-- P6: the pushed 0x01 is fetched next. -/
theorem test_witness_PushedByteIsFetchedNext :
    let s := setSp 9 (setReg 0 1 (placed 6 [0x45, 0]))
    s.run = .running ∧ s.pc.toNat ≤ 251 ∧ (0 : Byte).toNat = ((0 : RegIx) : Nat) ∧ (0 : RegIx) ≠ 7 ∧
    Memory.read s.mem s.pc.toNat = opc .push ∧ Memory.read s.mem (s.pc.toNat + 1) = 0 ∧
    (getReg 7 s).toNat = s.pc.toNat + 3 ∧ getReg 0 s = opc .hlt := by decide

/-- Also the witness of JeqCompletes and JneCompletes. -/
theorem test_witness_JmpCompletes : (7 : Byte).toNat = ((7 : RegIx) : Nat) ∧ (placed 253 []).pc.toNat ≤ 253 := by decide

theorem test_witness_BranchesTrapOnABadOperand : 8 ≤ (8 : Byte).toNat := by decide

theorem test_witness_BranchesBeforeTheFirstCompare : (placed 253 []).fl = State.reset.fl ∧
    (0 : Byte).toNat = ((0 : RegIx) : Nat) ∧ (placed 253 []).pc.toNat ≤ 253 := by decide

/-- Next states of LDI, ADD, MUL, CMP, PRN, PUSH, CALL, POP, RET, JMP, JEQ, JNE and HLT: the frames' hypotheses. -/
theorem test_witness_frames : (after (placed 0 [0x82, 0, 9])).isSome = true ∧ (after (placed 0 [0xA0, 0, 1])).isSome = true ∧
    (after (placed 0 [0xA2, 0, 1])).isSome = true ∧ (after (placed 0 [0xA7, 0, 1])).isSome = true ∧
    (after (placed 0 [0x47, 0])).isSome = true ∧ (after (placed 0 [0x45, 0])).isSome = true ∧
    (after (placed 0 [0x50, 0])).isSome = true ∧ (after (placed 0 [0x46, 0])).isSome = true ∧
    (after (placed 0 [0x11])).isSome = true ∧ (after (placed 0 [0x54, 0])).isSome = true ∧
    (after (placed 0 [0x55, 0])).isSome = true ∧ (after (placed 0 [0x56, 0])).isSome = true ∧
    (after (placed 0 [0x01])).isSome = true := by decide

theorem test_witness_FrameOfPushAndCall : decrementSp (setSp 1 State.reset) = .ok (setSp 0 State.reset) ∧
    decrementSp (setSp 0 State.reset) = .error (.stackError (-1)) := by decide

theorem test_witness_OnlyCmpWritesFlags :
    sees (·.fl) (placed 0 [0xA7, 0, 1]) = some ⟨false, false, true⟩ ∧ (placed 0 [0xA7, 0, 1]).fl ≠ ⟨false, false, true⟩ := by
  decide

theorem test_witness_LessAndGreaterInfluenceNothing :
    (⟨true, false, false⟩ : Flags).equal = (placed 0 [0x55, 0]).fl.equal ∧ (after (placed 0 [0x55, 0])).isSome = true := by decide

theorem test_witness_OnlyPushAndCallWriteMemory :
    sees (fun t => Memory.read t.mem 0xF3) (placed 0 [0x50, 0]) = some 2 ∧ Memory.read (placed 0 [0x50, 0]).mem 0xF3 = 0 := by
  decide

theorem test_witness_OutputOnlyGrowsByPrn : sees (·.out) (placed 0 [0x47, 0]) = some [0] := by decide

/-- Also the witness of UnsupportedOperationIsUnreachable and RunStateTransitions. -/
theorem test_witness_FaultCommitsNothing :
    sees (·.run) State.reset = some (.faulted ⟨.unknownOpcodeError 0, 0⟩) := by decide

/-- The order of checks where two could apply: `PUSH R9` with `sp = 0`, `LDI R8,1` at 253 (R141), and no fault at all. -/
theorem test_witness_FaultsAreThoseOfTheOrder :
    expectedFault (setSp 0 (placed 0 [0x45, 9])) = some (.addressError .reg 9) ∧
    expectedFault (placed 253 [0x82, 8, 1]) = some (.addressError .reg 8) ∧
    expectedFault (placed 253 [0x82, 7, 1]) = some (.addressError .pc 256) ∧
    expectedFault (setSp 0 (placed 0 [0x45, 7])) = some (.stackError (-1)) ∧
    expectedFault (placed 0xF4 [0xFF]) = some (.unknownOpcodeError 0xFF) ∧
    expectedFault (placed 254 [0xFF]) = some (.addressError .mem 256) ∧
    expectedFault (placed 253 [0x45, 7]) = none := by decide

theorem test_witness_IllFormedExactlyWhenRegisterFault : State.reset.run = .running ∧
    Instr.wellFormed (.jeq 8) = false ∧ Instr.wellFormed (.jeq 7) = true := by decide

/-- `POP R7` at 252 with the highest stack pointer allowed and the highest popped byte allowed. -/
theorem test_witness_SoftwareObligationsSuffice :
    let s := setSp 254 (placed 252 [0x46, 7, 254])
    s.run = .running ∧ s.pc.toNat ≤ 252 ∧
    decode (Memory.read s.mem 252) (Memory.read s.mem 253) (Memory.read s.mem 254) = .ok (.pop 7) ∧
    Instr.wellFormed (.pop 7) = true ∧ getReg 7 s ≠ 0 ∧ getReg 7 s ≠ 255 ∧
    Memory.read s.mem (getReg 7 s).toNat ≠ 255 := by decide

theorem test_witness_StepKeepsTheInvariant : Inv (placed 0 [0x45, 0]) ∧ (after (placed 0 [0x45, 0])).isSome = true :=
  ⟨⟨by decide, by simp [AtMostOneFlag, placed, setMem, setPc, State.reset], fun _ h => nomatch h⟩, by decide⟩

/-- The launched source example P1 is reachable; the launch of a single HLT ends well after one step. -/
theorem test_witness_EveryRunMeetsTheInvariant : SuccessfulRun [1] (setRun .halted (placed 0 [1])) :=
  ⟨.stepped (s := placed 0 [1]) (.launched rfl) rfl, rfl⟩

theorem test_witness_OneFlagStaysOneFlag : ExactlyOneFlag ⟨false, false, true⟩ ∧
    (after (setFlags ⟨false, false, true⟩ (placed 0 [0xA0, 0, 1]))).isSome = true :=
  ⟨by simp [ExactlyOneFlag, AtMostOneFlag], by decide⟩

/-- The edges of the address space: 0 and 255 inside, -1 and 256 outside. -/
theorem test_witness_MemoryAccesses : (0 : Int) ≤ 255 ∧ (255 : Int) ≤ 255 ∧ ((-1 : Int) < 0 ∨ (255 : Int) < -1) ∧
    ((256 : Int) < 0 ∨ (255 : Int) < 256) := by decide

/-- An image that begins with HLT, and the empty image, whose first byte 0x00 is of no row. -/
theorem test_witness_EntryPointIsAddressZero : launch [1] = .next (placed 0 [1]) ∧
    opc .hlt = Memory.read (placed 0 [1]).mem 0 ∧ launch [] = .next (placed 0 []) ∧
    ∀ m : Mnemonic, opc m ≠ Memory.read (placed 0 []).mem 0 :=
  ⟨rfl, rfl, rfl, fun m => by cases m <;> decide⟩

/-- 256 bytes are accepted, 257 are not. -/
theorem test_witness_LoadPlacesTheImage : (List.replicate 256 (1 : Byte)).length ≤ 256 ∧
    256 < (List.replicate 257 (1 : Byte)).length := by
  simp only [List.length_replicate]
  decide

theorem test_witness_ObservationOfARun : (setRun .halted State.reset).run ≠ .running := by decide

end Sys2Proof.Tests
end

section
/-! PROOFS. The accesses to memory on any integer address: inside 0..255 and outside, the two halves of the range check
(R8, R32, R35). -/

namespace Sys2Proof.Machine

/-- An integer address is a cell's address, or lies outside 0..255. -/
theorem memAddress_cases (addr : Int) : (∃ a : Nat, a ≤ 255 ∧ addr = a) ∨ (addr < 0 ∨ 255 < addr) := by
  by_cases h : addr < 0 ∨ 255 < addr
  · exact .inr h
  · exact .inl ⟨addr.toNat, by omega, by omega⟩

theorem memRead_outside (s : State) {addr : Int} (h : addr < 0 ∨ 255 < addr) :
    memRead addr s = .error (.addressError .mem addr) := if_pos h

theorem memWrite_outside (v : Byte) (s : State) {addr : Int} (h : addr < 0 ∨ 255 < addr) :
    memWrite addr v s = .error (.addressError .mem addr) := if_pos h

/-- After a write, a read of the same address gives the byte written. -/
theorem memRead_write_self (v : Byte) (s : State) {a : Nat} (h : a ≤ 255) :
    memRead (a : Int) (setMem (Memory.write s.mem a v) s) = .ok v := by
  rw [memRead_ok _ h, setMem_mem, Memory.read_write_self]

/-- A write leaves the read of every other address as it was, in range or not. -/
theorem memRead_write_ne (v : Byte) (s : State) {a : Nat} {other : Int} (hne : other ≠ a) :
    memRead other (setMem (Memory.write s.mem a v) s) = memRead other s := by
  rcases memAddress_cases other with ⟨b, hb, rfl⟩ | hout
  · have hba : b ≠ a := fun e => hne (congrArg Nat.cast e)
    rw [memRead_ok _ hb, memRead_ok _ hb, setMem_mem, Memory.read_write_ne _ _ hba]
  · rw [memRead_outside _ hout, memRead_outside _ hout]

/-- Settles O55: inside 0..255 by the laws of a read after a write, outside because the range check raises. -/
theorem memoryAccesses : Obligations.MemoryAccesses := by
  refine ⟨fun addr v s h0 h255 => ?_, fun addr v s hout => ⟨memRead_outside s hout, memWrite_outside v s hout⟩⟩
  obtain ⟨a, rfl⟩ := Int.eq_ofNat_of_zero_le h0
  have ha : a ≤ 255 := by omega
  exact ⟨_, memWrite_ok v s ha, memRead_write_self v s ha, fun _ hne => memRead_write_ne v s hne,
    rfl, rfl, rfl, rfl, rfl⟩

end Sys2Proof.Machine
end

section
/-! PROOFS. What an instruction leaves unchanged, read off `exec_next` field by field, and the frames of the instructions
(R11, R16, R22, R31). -/

namespace Sys2Proof.Machine

variable {i : Instr} {s t : State}

/-- The registers an instruction may write: its destination, and register 7 where it moves the stack pointer. -/
def MayWrite : Instr → RegIx → Prop
  | .ldi opA _, j | .add opA _, j | .mul opA _, j => opA.toNat = j
  | .pop opA, j => opA.toNat = j ∨ j = 7
  | .push _, j | .call _, j | .ret, j => j = 7
  | .hlt, _ | .prn _, _ | .cmp _ _, _ | .jmp _, _ | .jeq _, _ | .jne _, _ => False

/-! ### The committed cases, field by field -/

theorem Effect.getReg_eq {j : RegIx} (h : Effect s i t) (hj : ¬ MayWrite i j) : getReg j t = getReg j s := by
  cases h with
  | @ldi opA _ a ha _ | @add opA _ a _ ha _ _ | @mul opA _ a _ ha _ _ =>
    have haj : a ≠ j := fun e => hj (e ▸ ha)
    simp [haj]
  | @pop opA a _ ha _ _ _ =>
    obtain ⟨hA, h7⟩ := not_or.mp hj
    have haj : a ≠ j := fun e => hA (e ▸ ha)
    simp [setSp_eq, haj, Ne.symm h7]
  | push | call | ret =>
    have h7 : (7 : RegIx) ≠ j := Ne.symm hj
    simp [setSp_eq, h7]
  | hlt | prn | cmp | jmp | jeqTaken | jeqFall | jneTaken | jneFall => rfl

theorem Effect.fl_cases (h : Effect s i t) :
    t.fl = s.fl ∨ ∃ opA opB a b, i = .cmp opA opB ∧ t.fl = compareFlags a b := by
  cases h with
  | cmp => exact .inr ⟨_, _, _, _, rfl, rfl⟩
  | _ => exact .inl rfl

theorem Effect.mem_cases (h : Effect s i t) :
    t.mem = s.mem ∨ (∃ opA, i = .push opA ∨ i = .call opA) ∧ getSp s ≠ 0 ∧
      ∃ v, t.mem = Memory.write s.mem (getSp s - 1).toNat v := by
  cases h with
  | push _ hs _ => exact .inr ⟨⟨_, .inl rfl⟩, hs, _, rfl⟩
  | call _ hs => exact .inr ⟨⟨_, .inr rfl⟩, hs, _, rfl⟩
  | _ => exact .inl rfl

theorem Effect.out_cases (h : Effect s i t) :
    t.out = s.out ∨ ∃ (opA : Byte) (a : RegIx), i = .prn opA ∧ opA.toNat = a ∧ t.out = s.out ++ [getReg a s] := by
  cases h with
  | prn ha _ => exact .inr ⟨_, _, rfl, ha, rfl⟩
  | _ => exact .inl rfl

theorem Effect.run_cases (h : Effect s i t) : t.run = s.run ∨ i = .hlt ∧ t.run = .halted := by
  cases h with
  | hlt => exact .inr ⟨rfl, rfl⟩
  | _ => exact .inl rfl

/-! ### Whatever next state an instruction answers -/

theorem exec_getReg_eq {j : RegIx} (h : exec i s = .next t) (hj : ¬ MayWrite i j) : getReg j t = getReg j s := by
  rcases exec_next h with ⟨c, -, rfl⟩ | he
  · exact getReg_takeFault c j s
  · exact he.getReg_eq hj

theorem exec_fl_cases (h : exec i s = .next t) :
    t.fl = s.fl ∨ ∃ opA opB a b, i = .cmp opA opB ∧ t.fl = compareFlags a b := by
  rcases exec_next h with ⟨c, -, rfl⟩ | he
  · exact .inl (takeFault_fl c s)
  · exact he.fl_cases

theorem exec_mem_cases (h : exec i s = .next t) :
    t.mem = s.mem ∨ (∃ opA, i = .push opA ∨ i = .call opA) ∧ getSp s ≠ 0 ∧
      ∃ v, t.mem = Memory.write s.mem (getSp s - 1).toNat v := by
  rcases exec_next h with ⟨c, -, rfl⟩ | he
  · exact .inl (takeFault_mem c s)
  · exact he.mem_cases

theorem exec_fl_eq (h : exec i s = .next t) (hi : i.mnemonic ≠ .cmp) : t.fl = s.fl := by
  rcases exec_fl_cases h with hf | ⟨_, _, _, _, rfl, -⟩
  · exact hf
  · exact absurd rfl hi

theorem exec_mem_eq (h : exec i s = .next t) (hi : i.mnemonic ≠ .push ∧ i.mnemonic ≠ .call) : t.mem = s.mem := by
  obtain ⟨hpush, hcall⟩ := hi
  rcases exec_mem_cases h with hm | ⟨⟨_, rfl | rfl⟩, -⟩
  · exact hm
  · exact absurd rfl hpush
  · exact absurd rfl hcall

theorem exec_out_eq (h : exec i s = .next t) (hi : i.mnemonic ≠ .prn) : t.out = s.out := by
  rcases exec_next h with ⟨c, -, rfl⟩ | he
  · exact takeFault_out c s
  · rcases he.out_cases with ho | ⟨_, _, rfl, -⟩
    · exact ho
    · exact absurd rfl hi

/-- Any instruction but HLT keeps the run state or takes a fault at the program counter it stands at. -/
theorem exec_run_cases (h : exec i s = .next t) (hi : i.mnemonic ≠ .hlt) :
    t.run = s.run ∨ ∃ c, t.run = .faulted ⟨c, s.pc⟩ := by
  rcases exec_next h with ⟨c, -, rfl⟩ | he
  · exact .inr ⟨c, takeFault_run c s⟩
  · rcases he.run_cases with hr | ⟨rfl, -⟩
    · exact .inl hr
    · exact absurd rfl hi

theorem decrementSp_eq_ok {s1 : State} (h : decrementSp s = .ok s1) : s1 = setSp (getSp s - 1) s := by
  by_cases hs : getSp s = 0
  · rw [decrementSp_error hs] at h
    cases h
  · rw [decrementSp_ok hs] at h
    exact (Except.ok.inj h).symm

theorem decrementSp_eq_error {c : FaultCause} (h : decrementSp s = .error c) : getSp s = 0 := by
  by_contra hs
  rw [decrementSp_ok hs] at h
  cases h

/-- Memory outside the cell the decremented stack pointer holds, whatever the instruction. -/
theorem exec_read_eq_of_decrementSp_ok {s1 : State} (h : exec i s = .next t) (hd : decrementSp s = .ok s1) {b : Nat}
    (hb : (b : Int) ≠ spAddress s1) : Memory.read t.mem b = Memory.read s.mem b := by
  rcases exec_mem_cases h with hm | ⟨-, -, v, hm⟩
  · rw [hm]
  · have hne : b ≠ (getSp s - 1).toNat := by
      rintro rfl
      simp [decrementSp_eq_ok hd, spAddress, getSp_eq, setSp_eq] at hb
    rw [hm, Memory.read_write_ne _ _ hne]

/-- Where the decrement of the stack pointer is refused, no instruction writes memory. -/
theorem exec_mem_eq_of_decrementSp_error {c : FaultCause} (h : exec i s = .next t) (hd : decrementSp s = .error c) :
    t.mem = s.mem := by
  rcases exec_mem_cases h with hm | ⟨-, hs, -⟩
  · exact hm
  · exact absurd (decrementSp_eq_error hd) hs

/-! ### The frames -/

/-- The frame LDI, ADD and MUL share: they differ in the value they write alone. -/
theorem exec_registerWriter_frame {opA : Byte} (h : exec i s = .next t)
    (hi : ∃ opB, i = .ldi opA opB ∨ i = .add opA opB ∨ i = .mul opA opB) :
    (∀ j : RegIx, opA.toNat ≠ j → getReg j t = getReg j s) ∧ t.fl = s.fl ∧
    (∀ b, Memory.read t.mem b = Memory.read s.mem b) ∧ t.out = s.out ∧
    (t.run = s.run ∨ ∃ c, t.run = .faulted ⟨c, s.pc⟩) := by
  have hm : t.mem = s.mem := exec_mem_eq h (by rcases hi with ⟨_, rfl | rfl | rfl⟩ <;> exact ⟨nofun, nofun⟩)
  refine ⟨fun j hj => exec_getReg_eq h ?_, exec_fl_eq h ?_, fun b => by rw [hm], exec_out_eq h ?_, exec_run_cases h ?_⟩
  · rcases hi with ⟨_, rfl | rfl | rfl⟩ <;> exact hj
  all_goals rcases hi with ⟨_, rfl | rfl | rfl⟩ <;> exact nofun

/-- Settles O35: LDI, ADD and MUL are register writers with destination `opA`. -/
theorem frameOfRegisterWriters : Obligations.FrameOfRegisterWriters := by
  rintro opA opB s t (h | h | h)
  · exact exec_registerWriter_frame h ⟨opB, .inl rfl⟩
  · exact exec_registerWriter_frame h ⟨opB, .inr (.inl rfl)⟩
  · exact exec_registerWriter_frame h ⟨opB, .inr (.inr rfl)⟩

/-- Settles O36: neither CMP nor PRN may write a register, CMP emits nothing and PRN sets no flag. -/
theorem frameOfCmpAndPrn : Obligations.FrameOfCmpAndPrn := by
  refine ⟨fun opA opB s t h => ?_, fun opA s t h => ?_⟩
  · have hm : t.mem = s.mem := exec_mem_eq h ⟨nofun, nofun⟩
    exact ⟨fun _ => exec_getReg_eq h id, fun b => by rw [hm], exec_out_eq h nofun, exec_run_cases h nofun⟩
  · have hm : t.mem = s.mem := exec_mem_eq h ⟨nofun, nofun⟩
    exact ⟨fun _ => exec_getReg_eq h id, fun b => by rw [hm], exec_fl_eq h nofun, exec_run_cases h nofun⟩

/-- The frame PUSH and CALL share. -/
theorem exec_pusher_frame (h : exec i s = .next t) (hi : ∃ opA, i = .push opA ∨ i = .call opA) :
    (∀ j, j ≠ 7 → getReg j t = getReg j s) ∧ t.fl = s.fl ∧ t.out = s.out ∧
    (∀ s1, decrementSp s = .ok s1 → ∀ b : Nat, (b : Int) ≠ spAddress s1 → Memory.read t.mem b = Memory.read s.mem b) ∧
    (∀ c, decrementSp s = .error c → ∀ b, Memory.read t.mem b = Memory.read s.mem b) ∧
    (t.run = s.run ∨ ∃ c, t.run = .faulted ⟨c, s.pc⟩) := by
  have hok s1 (hd : decrementSp s = .ok s1) (b : Nat) (hb : (b : Int) ≠ spAddress s1) :=
    exec_read_eq_of_decrementSp_ok h hd hb
  have herror c (hd : decrementSp s = .error c) (b : Nat) : Memory.read t.mem b = Memory.read s.mem b := by
    rw [exec_mem_eq_of_decrementSp_error h hd]
  refine ⟨fun j hj => exec_getReg_eq h ?_, exec_fl_eq h ?_, exec_out_eq h ?_, hok, herror, exec_run_cases h ?_⟩
  · rcases hi with ⟨_, rfl | rfl⟩ <;> exact hj
  all_goals rcases hi with ⟨_, rfl | rfl⟩ <;> exact nofun

/-- Settles O37: the one cell PUSH and CALL write is the one the decremented stack pointer names. -/
theorem frameOfPushAndCall : Obligations.FrameOfPushAndCall := by
  rintro opA s t (h | h)
  · exact exec_pusher_frame h ⟨opA, .inl rfl⟩
  · exact exec_pusher_frame h ⟨opA, .inr rfl⟩

/-- Settles O38: POP may write its destination and register 7, RET register 7, and neither stores to memory. -/
theorem frameOfPopAndRet : Obligations.FrameOfPopAndRet := by
  refine ⟨fun opA s t h => ?_, fun s t h => ?_⟩
  · have hm : t.mem = s.mem := exec_mem_eq h ⟨nofun, nofun⟩
    exact ⟨fun _ hA h7 => exec_getReg_eq h (not_or.mpr ⟨hA, h7⟩), exec_fl_eq h nofun, fun b => by rw [hm],
      exec_out_eq h nofun, exec_run_cases h nofun⟩
  · have hm : t.mem = s.mem := exec_mem_eq h ⟨nofun, nofun⟩
    exact ⟨fun _ h7 => exec_getReg_eq h h7, exec_fl_eq h nofun, fun b => by rw [hm], exec_out_eq h nofun,
      exec_run_cases h nofun⟩

/-- Settles O39: a branch or HLT may write no register and is none of CMP, PRN, PUSH and CALL. -/
theorem frameOfBranchesAndHlt : Obligations.FrameOfBranchesAndHlt := by
  refine ⟨fun i s t hi h => ?_, fun s t h => ?_⟩
  · obtain ⟨hreg, hcmp, hprn, hstore⟩ : (∀ j, ¬ MayWrite i j) ∧ i.mnemonic ≠ .cmp ∧ i.mnemonic ≠ .prn ∧
        i.mnemonic ≠ .push ∧ i.mnemonic ≠ .call := by
      rcases hi with ⟨_, rfl | rfl | rfl⟩ | rfl <;> exact ⟨fun _ => id, nofun, nofun, nofun, nofun⟩
    exact ⟨fun j => exec_getReg_eq h (hreg j), exec_fl_eq h hcmp, fun b => by rw [exec_mem_eq h hstore],
      exec_out_eq h hprn⟩
  · obtain rfl : setRun .halted s = t := Host.Outcome.next.inj h
    exact setRun_pc .halted s

/-- Settles O40: the flags change in no committed case but CMP's, and a fault keeps them. -/
theorem onlyCmpWritesFlags : Obligations.OnlyCmpWritesFlags := by
  intro i s t h hne
  rcases exec_fl_cases h with hf | ⟨opA, opB, _, _, hi, -⟩
  · exact absurd hf hne
  · exact ⟨opA, opB, hi⟩

end Sys2Proof.Machine
end

section
/-! PROOFS. Every operation of the machine commutes with a change of the flags, and only a branch reads them, through
Equal: Less and Greater are dead state (R16, R120). -/

namespace Sys2Proof.Machine

variable {i : Instr} {s t : State} {f : Flags}

theorem advance_setFlags (n : Nat) : advance n (setFlags f s) = setFlags f <$> advance n s := by
  rcases advance_cases n s with ⟨hp, e⟩ | ⟨hp, e⟩
  · rw [e, advance_ok (s := setFlags f s) hp]
    rfl
  · rw [e, advance_error (s := setFlags f s) hp]
    rfl

theorem incrementSp_setFlags : incrementSp (setFlags f s) = setFlags f <$> incrementSp s := by
  by_cases h : getSp s = 255
  · rw [incrementSp_error h, incrementSp_error (s := setFlags f s) h]
    rfl
  · rw [incrementSp_ok h, incrementSp_ok (s := setFlags f s) h]
    rfl

theorem pushByte_setFlags {value value' : State → Byte} (hv : ∀ u, value' (setFlags f u) = value u) :
    pushByte value' (setFlags f s) = setFlags f <$> pushByte value s := by
  by_cases h : getSp s = 0
  · rw [pushByte_error h, pushByte_error (s := setFlags f s) h]
    rfl
  · rw [pushByte_ok h, pushByte_ok (s := setFlags f s) h]
    have hw : value' (setSp (getSp (setFlags f s) - 1) (setFlags f s)) = value (setSp (getSp s - 1) s) :=
      hv (setSp (getSp s - 1) s)
    rw [hw]
    rfl

theorem branchIf_setFlags (taken : Bool) (a : RegIx) :
    branchIf taken a (setFlags f s) = setFlags f <$> branchIf taken a s := by
  cases taken with
  | true => rfl
  | false => exact advance_setFlags 2

/-- An ALU instruction that answers a result; CMP answers flags and overwrites those it finds. -/
theorem aluInstr_setFlags {op : AluOp} {opA opB : Byte} (hop : ∀ a b, ∃ v, alu op a b = .ok (.result v)) :
    aluInstr op opA opB (setFlags f s) = setFlags f <$> aluInstr op opA opB s := by
  rcases regPair_cases opA opB with ⟨a, b, ha, hb⟩ | ⟨_, -, he⟩
  · obtain ⟨v, hv⟩ := hop (getReg a s) (getReg b s)
    rw [aluInstr_ok ha hb s hv, aluInstr_ok ha hb (setFlags f s) hv]
    exact advance_setFlags (s := writeAluResult a (.result v) s) 3
  · rw [aluInstr_error _ he, aluInstr_error _ he]
    rfl

/-- Sequencing, where the first part reads no flag and answers no state. -/
theorem bind_setFlags_right {α : Type} {r : Except FaultCause α} {k k' : α → Except FaultCause State}
    (hk : ∀ a, k' a = setFlags f <$> k a) : r >>= k' = setFlags f <$> (r >>= k) := by
  rw [map_bind, funext hk]

/-- Sequencing of two parts that both commute with the change of the flags. -/
theorem bind_setFlags {r r' : Except FaultCause State} {k k' : State → Except FaultCause State}
    (hr : r' = setFlags f <$> r) (hk : ∀ u, k' (setFlags f u) = setFlags f <$> k u) :
    r' >>= k' = setFlags f <$> (r >>= k) := by
  cases r with
  | error c => rw [hr]; rfl
  | ok u => rw [hr]; exact hk u

/-- The end of a step whose work commutes with the change of the flags: a fault commutes with it too. -/
theorem commit_setFlags {r r' : Except FaultCause State} (hr : r' = setFlags f <$> r) (h : commit s r = .next t) :
    commit (setFlags f s) r' = .next (setFlags f t) := by
  rw [hr]
  rcases commit_next.mp h with rfl | ⟨c, rfl, rfl⟩ <;> rfl

/-- An instruction that writes no flag, from two states that agree on Equal. -/
theorem exec_setFlags (hf : f.equal = s.fl.equal) (hi : i.mnemonic ≠ .cmp) (h : exec i s = .next t) :
    exec i (setFlags f s) = .next (setFlags f t) := by
  cases i with
  | hlt => exact commit_setFlags (s := s) (r := .ok (setRun .halted s)) rfl h
  | ldi opA imm8 => exact commit_setFlags (bind_setFlags_right fun a => advance_setFlags (s := setReg a imm8 s) 3) h
  | prn opA => exact commit_setFlags (bind_setFlags_right fun a => advance_setFlags (s := emit (getReg a s) s) 2) h
  | add opA opB => exact commit_setFlags (aluInstr_setFlags fun _ _ => ⟨_, rfl⟩) h
  | mul opA opB => exact commit_setFlags (aluInstr_setFlags fun _ _ => ⟨_, rfl⟩) h
  | cmp opA opB => exact absurd rfl hi
  | push opA =>
    refine commit_setFlags (bind_setFlags_right fun a => bind_setFlags ?_ fun _ => advance_setFlags 2) h
    exact pushByte_setFlags (getReg_setFlags f a)
  | pop opA =>
    refine commit_setFlags (bind_setFlags_right fun a => bind_setFlags_right fun v => ?_) h
    exact bind_setFlags (incrementSp_setFlags (s := setReg a v s)) fun _ => advance_setFlags 2
  | call opA =>
    refine commit_setFlags (bind_setFlags_right fun a => bind_setFlags ?_ fun _ => rfl) h
    exact pushByte_setFlags fun _ => rfl
  | ret => exact commit_setFlags (bind_setFlags_right fun t => bind_setFlags incrementSp_setFlags fun _ => rfl) h
  | jmp opA => exact commit_setFlags (bind_setFlags_right fun _ => rfl) h
  | jeq opA => exact commit_setFlags (bind_setFlags_right fun a => hf ▸ branchIf_setFlags s.fl.equal a) h
  | jne opA => exact commit_setFlags (bind_setFlags_right fun a => hf ▸ branchIf_setFlags (!s.fl.equal) a) h

/-- CMP reads no flag: where it completes it leaves the same flags, where it faults it leaves those it found. -/
theorem execCmp_setFlags {opA opB : Byte} (h : execCmp opA opB s = .next t) :
    execCmp opA opB (setFlags f s) = .next t ∨
    t.fl = s.fl ∧ execCmp opA opB (setFlags f s) = .next (setFlags f t) := by
  rcases regPair_cases opA opB with ⟨a, b, ha, hb⟩ | ⟨_, -, he⟩
  · have hcmp := execCmp_named (setFlags f s) ha hb
    rw [execCmp_named s ha hb] at h
    rcases advance_cases 3 (setFlags (compareFlags (getReg a s) (getReg b s)) s) with ⟨-, e⟩ | ⟨-, e⟩
    · rw [e] at h
      exact .inl (hcmp.trans ((congrArg (commit (setFlags f s)) e).trans h))
    · rw [e] at h
      obtain rfl := Host.Outcome.next.inj h
      exact .inr ⟨rfl, hcmp.trans (congrArg (commit (setFlags f s)) e)⟩
  · obtain rfl := Host.Outcome.next.inj ((commit_aluInstr_error .cmp s he).symm.trans h)
    exact .inr ⟨rfl, commit_aluInstr_error .cmp (setFlags f s) he⟩

/-- Every instruction keeps two states apart in Less and Greater alone. -/
theorem exec_lessAndGreater (hf : f.equal = s.fl.equal) (h : exec i s = .next t) :
    ∃ g : Flags, g.equal = t.fl.equal ∧ exec i (setFlags f s) = .next (setFlags g t) := by
  by_cases hi : i.mnemonic = .cmp
  · obtain ⟨opA, opB, rfl⟩ : ∃ opA opB, i = .cmp opA opB := by
      cases i with
      | cmp opA opB => exact ⟨opA, opB, rfl⟩
      | _ => cases hi
    rcases execCmp_setFlags (f := f) h with hsame | ⟨hfl, hkept⟩
    · exact ⟨t.fl, rfl, hsame⟩
    · exact ⟨f, by rw [hf, hfl], hkept⟩
  · have hfl : t.fl = s.fl := exec_fl_eq h hi
    exact ⟨f, by rw [hf, hfl], exec_setFlags hf hi h⟩

/-- Fetch reads no flag. -/
theorem fetchWith_setFlags (o : OpcodeTable) : fetchWith o (setFlags f s) = fetchWith o s := rfl

/-- Settles O41: fetch reads no flag, and every instruction keeps the relation. -/
theorem lessAndGreaterInfluenceNothing : Obligations.LessAndGreaterInfluenceNothing := by
  intro s t f hf h
  have hr : s.run = .running := (step_next h).1
  have hr' : (setFlags f s).run = .running := hr
  have hfetch' : fetchWith opc (setFlags f s) = fetchWith opc s := fetchWith_setFlags opc
  cases hfetch : fetchWith opc s with
  | ok i =>
    obtain ⟨g, hg, hexec⟩ := exec_lessAndGreater hf ((stepWith_ok hr hfetch).symm.trans h)
    exact ⟨g, hg, (stepWith_ok hr' (hfetch'.trans hfetch)).trans hexec⟩
  | error c =>
    obtain rfl := Host.Outcome.next.inj ((stepWith_error hr hfetch).symm.trans h)
    exact ⟨f, hf, stepWith_error hr' (hfetch'.trans hfetch)⟩

end Sys2Proof.Machine
end

section
/-! PROOFS. What a step can do to the flags, the memory, the output and the fault record, and the invariants that follow
(R18, R22, R26, R131). -/

namespace Sys2Proof.Machine

variable {s t : State}

theorem Raisable.legalCause {c : FaultCause} (hp : s.pc.toNat ≤ 253) (h : Raisable s c) : LegalCause c := by
  cases h with
  | @reg op h8 =>
    have hop := op.isLt
    show 8 ≤ (op.toNat : Int) ∧ (op.toNat : Int) ≤ 255
    omega
  | @pc n hn hpast =>
    show ((s.pc.toNat + n : Nat) : Int) = 256
    omega
  | stackLow => exact .inl rfl
  | stackHigh => exact .inr rfl

/-- Everything a step that answers a next state can do: take a fault with a cause of the table, or the effect of the
instruction at the program counter. -/
theorem step_cases (h : step s = .next t) :
    (∃ c, LegalCause c ∧ t = takeFault c s) ∨
    ∃ m, opc m = Memory.read s.mem s.pc.toNat ∧
      Effect s (m.build (Memory.read s.mem (s.pc.toNat + 1)) (Memory.read s.mem (s.pc.toNat + 2))) t := by
  rcases step_next h with ⟨-, ⟨-, rfl⟩ | ⟨-, hl, rfl⟩ | ⟨hp, m, hl, he⟩⟩
  · exact .inl ⟨.addressError .mem 256, rfl, rfl⟩
  · exact .inl ⟨.unknownOpcodeError _, hl, rfl⟩
  · rcases exec_next he with ⟨c, hc, rfl⟩ | heff
    · exact .inl ⟨c, hc.legalCause hp, rfl⟩
    · exact .inr ⟨m, lookup_some hl, heff⟩

/-- A step keeps the flags or sets those of a comparison. -/
theorem step_fl_cases (h : step s = .next t) : t.fl = s.fl ∨ ∃ a b, t.fl = compareFlags a b := by
  rcases step_cases h with ⟨c, -, rfl⟩ | ⟨m, -, he⟩
  · exact .inl (takeFault_fl c s)
  · rcases he.fl_cases with hf | ⟨_, _, a, b, -, hf⟩
    · exact .inl hf
    · exact .inr ⟨a, b, hf⟩

theorem step_mem_wf (h : step s = .next t) (hw : Memory.wf s.mem) : Memory.wf t.mem := by
  rcases step_cases h with ⟨c, -, rfl⟩ | ⟨m, -, he⟩
  · exact hw
  · rcases he.mem_cases with hm | ⟨-, -, v, hm⟩
    · exact hm ▸ hw
    · exact hm ▸ Memory.wf_write v hw (getSp s - 1).isLt

/-- A step from a Running state leaves no fault record but the one it takes. -/
theorem step_record {r : FaultRecord} (h : step s = .next t) (hr : t.run = .faulted r) :
    r.pc = t.pc ∧ LegalCause r.cause := by
  rcases step_cases h with ⟨c, hc, rfl⟩ | ⟨m, -, he⟩
  · obtain rfl : ⟨c, s.pc⟩ = r := RunState.faulted.inj hr
    exact ⟨rfl, hc⟩
  · have hrun : s.run = .running := (step_next h).1
    rcases he.run_cases with hs | ⟨-, hh⟩
    · rw [hs, hrun] at hr
      cases hr
    · rw [hh] at hr
      cases hr

theorem exactlyOneFlag_compareFlags (a b : Byte) : ExactlyOneFlag (compareFlags a b) := by
  simp only [ExactlyOneFlag, AtMostOneFlag, compareFlags, decide_eq_true_eq]
  omega

/-- Settles O51: memory by the law of a write, the flags because a comparison sets one, the record because a fault writes
it whole. -/
theorem stepKeepsTheInvariant : Obligations.StepKeepsTheInvariant := by
  intro s t hs h
  refine ⟨step_mem_wf h hs.mem_wf, ?_, fun _ hr => step_record h hr⟩
  rcases step_fl_cases h with hf | ⟨a, b, hf⟩
  · exact hf ▸ hs.flags
  · exact hf ▸ (exactlyOneFlag_compareFlags a b).2

/-- Settles O54: a step keeps the flags or sets those of a comparison, of which exactly one is 1. -/
theorem oneFlagStaysOneFlag : Obligations.OneFlagStaysOneFlag := by
  intro s t hs h
  rcases step_fl_cases h with hf | ⟨a, b, hf⟩
  · exact hf ▸ hs
  · exact hf ▸ exactlyOneFlag_compareFlags a b

theorem build_eq_prn {m : Mnemonic} {a b op : Byte} (h : m.build a b = .prn op) : m = .prn ∧ a = op := by
  cases m with
  | prn => exact ⟨rfl, Instr.prn.inj h⟩
  | _ => cases h

/-- Settles O43: PRN's effect is the only one that touches the output, and its operand is the byte after the opcode. -/
theorem outputOnlyGrowsByPrn : Obligations.OutputOnlyGrowsByPrn := by
  intro s t h
  rcases step_cases h with ⟨c, -, rfl⟩ | ⟨m, hm, he⟩
  · exact .inl (takeFault_out c s)
  · rcases he.out_cases with ho | ⟨opA, a, hi, ha, ho⟩
    · exact .inl ho
    · obtain ⟨rfl, rfl⟩ := build_eq_prn hi
      exact .inr ⟨hm.symm, a, ha, ho⟩

theorem launch_inv {image : List Byte} (h : launch image = .next s) : Inv s := by
  by_cases hl : image.length ≤ Config.memSize
  · rw [launch, loadImage, if_pos hl] at h
    obtain rfl := Host.Outcome.next.inj h
    exact ⟨storeBytes_wf 0 image Memory.wf_reset, ⟨nofun, nofun, nofun⟩, nofun⟩
  · rw [launch, loadImage, if_neg hl] at h
    cases h

theorem reachable_inv {image : List Byte} (h : Reachable image s) : Inv s := by
  induction h with
  | launched h => exact launch_inv h
  | stepped _ h ih => exact stepKeepsTheInvariant _ _ ih h

/-- Settles O53: by induction on the run with the step lemma of O51; a Halted machine has no step. -/
theorem everyRunMeetsTheInvariant : Obligations.EveryRunMeetsTheInvariant := by
  refine ⟨fun _ _ => reachable_inv, fun image s ⟨hreach, hhalted⟩ => ⟨reachable_inv hreach, fun t h => ?_⟩⟩
  have hrun : s.run = .running := (step_next h).1
  rw [hhalted] at hrun
  cases hrun

end Sys2Proof.Machine
end

section
/-! PROOFS. What an instruction stores in memory and what the next fetch sees of it: only PUSH and CALL store, in the cell
below the stack pointer, and a byte stored where the program counter goes next is the next opcode (R31, R42). -/

namespace Sys2Proof.Machine

variable {s : State}

theorem toNat_sub_one_add_one {p : Byte} (h : p ≠ 0) : (p - 1).toNat + 1 = p.toNat := by
  bv_omega

/-- Settles O42: whatever next state an instruction answers, its memory is the one before, or PUSH or CALL wrote the one
cell below the stack pointer. -/
theorem onlyPushAndCallWriteMemory : Obligations.OnlyPushAndCallWriteMemory := by
  intro i s t h b hb
  rcases exec_mem_cases h with hm | ⟨hi, hs, v, hm⟩
  · exact absurd (congrArg (Memory.read · b) hm) hb
  · have hcell : b = (getSp s - 1).toNat := by
      by_contra hne
      exact hb (by rw [hm, Memory.read_write_ne _ _ hne])
    exact ⟨hi, hcell ▸ toNat_sub_one_add_one hs⟩

/-- The step of a running machine where the table's byte for a row stands at the program counter. -/
theorem step_of_read_opc {m : Mnemonic} (hr : s.run = .running) (hp : s.pc.toNat ≤ 253)
    (hm : Memory.read s.mem s.pc.toNat = opc m) :
    step s = exec (m.build (Memory.read s.mem (s.pc.toNat + 1)) (Memory.read s.mem (s.pc.toNat + 2))) s := by
  have hf := fetchWith_low (t := opc) hp
  rw [hm, decodeWith_some (lookup_self opc_distinct m)] at hf
  exact stepWith_ok hr hf

/-- The state a completed push of `x[a]` leaves: the register, read after the decrement, in the cell below the stack pointer,
and the program counter past the two bytes of PUSH (R100). -/
def pushed (a : RegIx) (s : State) : State :=
  setPc (BitVec.ofNat 8 (s.pc.toNat + 2))
    (setMem (Memory.write s.mem (getSp s - 1).toNat (getReg a (setSp (getSp s - 1) s))) (setSp (getSp s - 1) s))

theorem exec_push_eq_pushed {opA : Byte} {a : RegIx} (ha : opA.toNat = a) (hs : getSp s ≠ 0)
    (hp : s.pc.toNat + 2 ≤ 255) : exec (.push opA) s = .next (pushed a s) := by
  show execPush opA s = _
  rw [execPush_named s ha, pushByte_ok hs]
  exact congrArg (commit s) (advance_ok (s := setMem _ (setSp _ s)) hp)

theorem pushed_pc_toNat {a : RegIx} (hp : s.pc.toNat + 2 ≤ 255) : (pushed a s).pc.toNat = s.pc.toNat + 2 :=
  pc_ofNat_toNat hp

/-- Of a register other than 7, which the decrement leaves alone, the stored byte is its value before the step. -/
theorem read_pushed_mem {a : RegIx} (ha : a ≠ 7) : Memory.read (pushed a s).mem (getSp s - 1).toNat = getReg a s := by
  simp [pushed, setSp_eq, ha.symm]

/-- Settles O29: the cell below the stack pointer is the one the program counter advances to, so the next step finds there
the byte just stored. -/
theorem pushedByteIsFetchedNext : Obligations.PushedByteIsFetchedNext := by
  intro opA a s hr hp ha ha7 hop hopA hsp
  have hs : getSp s ≠ 0 := by
    intro h0
    simp [← getSp_eq, h0] at hsp
  have hpc : (pushed a s).pc.toNat = s.pc.toNat + 2 := pushed_pc_toNat (by omega)
  have hcell : (getSp s - 1).toNat = (pushed a s).pc.toNat := by
    have hdec := toNat_sub_one_add_one hs
    rw [getSp_eq] at hdec ⊢
    omega
  have hread : Memory.read (pushed a s).mem (pushed a s).pc.toNat = getReg a s := hcell ▸ read_pushed_mem ha7
  refine ⟨pushed a s, ?_, hpc, hread, fun hhlt => ?_⟩
  · rw [step_of_read_opc hr (by omega) hop, hopA]
    exact exec_push_eq_pushed ha hs (by omega)
  · exact step_of_read_opc (m := .hlt) hr (by omega) (hread.trans hhlt)

end Sys2Proof.Machine
end

section
/-! PROOFS. The encoding: encode and decode undo each other for every opcode table, a row's instruction depends on the
operand bytes of its format alone, and the words of the spec decode (R50, R51, R57, R60, R64). -/

namespace Sys2Proof

/-- An instruction is its own row's instruction on its operand bytes; what follows them does not matter (R51, R60). -/
theorem mnemonic_build_operands (i : Instr) (next1 next2 : Byte) :
    i.mnemonic.build ((i.operands ++ [next1, next2]).getD 0 0) ((i.operands ++ [next1, next2]).getD 1 0) = i := by
  cases i <;> rfl

/-- The encoding of a row's instruction is the row's byte and the operand bytes its format has (R50). -/
theorem encodeWith_build (t : OpcodeTable) (m : Mnemonic) (opA opB : Byte) :
    encodeWith t (m.build opA opB) = [t m, opA, opB].take m.format.length := by
  cases m <;> rfl

/-- A format Z row uses neither candidate operand byte. -/
theorem build_eq_of_format_z {m : Mnemonic} (h : m.format = .z) (a b a' b' : Byte) : m.build a b = m.build a' b' := by
  cases m with
  | hlt | ret => rfl
  | _ => cases h

/-- A format R row does not use the second candidate operand byte. -/
theorem build_eq_of_format_r {m : Mnemonic} (h : m.format = .r) (a b b' : Byte) : m.build a b = m.build a b' := by
  cases m with
  | prn | push | pop | call | jmp | jeq | jne => rfl
  | _ => cases h

/-- Bytes that decode belong to a row, and decode to that row's instruction. -/
theorem exists_of_decodeWith_eq_ok {t : OpcodeTable} {o a b : Byte} {i : Instr} (h : decodeWith t o a b = .ok i) :
    ∃ m, t m = o ∧ m.build a b = i := by
  cases hl : lookup t o with
  | none =>
    rw [decodeWith_none hl] at h
    cases h
  | some m =>
    rw [decodeWith_some hl] at h
    exact ⟨m, lookup_some hl, Except.ok.inj h⟩

/-- With distinct bytes a row's byte decodes to that row's instruction. -/
theorem decodeWith_self {t : OpcodeTable} (ht : t.Distinct) (m : Mnemonic) (a b : Byte) :
    decodeWith t (t m) a b = .ok (m.build a b) :=
  decodeWith_some (lookup_self ht m)

/-- Settles O1: the lookup finds the instruction's row, which rebuilds it from its operand bytes. -/
theorem decodeOfEncodeIsTheInstruction : Obligations.DecodeOfEncodeIsTheInstruction := by
  intro t ht i next1 next2
  calc decodeBytesWith t (encodeWith t i ++ [next1, next2])
      = .ok (i.mnemonic.build ((i.operands ++ [next1, next2]).getD 0 0) ((i.operands ++ [next1, next2]).getD 1 0)) :=
        decodeWith_self ht i.mnemonic _ _
    _ = .ok i := by rw [mnemonic_build_operands]

/-- Settles O2: the bytes decoded to a row's instruction, and that encodes to the bytes of the row's format. -/
theorem encodeOfDecodeIsTheBytes : Obligations.EncodeOfDecodeIsTheBytes := by
  intro t opcode opA opB i h
  obtain ⟨m, rfl, rfl⟩ := exists_of_decodeWith_eq_ok h
  rw [encodeWith_build, Instr.length, build_mnemonic]

/-- Settles O10: the step is the instruction of the row at the program counter, which the unused bytes do not change. -/
theorem unusedOperandBytesAreIgnored : Obligations.UnusedOperandBytesAreIgnored := by
  intro s m hr hp hm
  have hstep := Machine.step_of_read_opc hr hp hm.symm
  refine ⟨fun hz any1 any2 => ?_, fun hfr any2 => ?_⟩
  · rw [hstep, build_eq_of_format_z hz _ _ any1 any2]
  · rw [hstep, build_eq_of_format_r hfr _ _ any2]

/-- Settles O5: each word starts with the byte of its row, but for 0xA1, which no row has. -/
theorem specWordsDecode : Obligations.SpecWordsDecode :=
  have row : ∀ (m : Mnemonic) (a b : Byte), decode (opc m) a b = .ok (m.build a b) := decodeWith_self opc_distinct
  ⟨row .ldi _ _, row .prn _ _, row .hlt _ _, row .mul _ _, row .cmp _ _, row .call _ _, row .ret _ _, row .jne _ _,
    decodeWith_none (by decide)⟩

end Sys2Proof
end

section
/-! PROOFS. The execution loop: what a step does with the bytes at the program counter, when a step is enabled, and how a run
comes to Halted (R70 to R72, R76, R77). -/

namespace Sys2Proof.Machine

variable {tbl : OpcodeTable} {i : Instr} {s t : State}

/-! ### Fetch, decode and dispatch -/

/-- The step of a running machine whose three bytes at the program counter decode, for any opcode table. -/
theorem stepWith_of_decodeWith (hr : s.run = .running) (hp : s.pc.toNat ≤ 253)
    (hd : decodeWith tbl (Memory.read s.mem s.pc.toNat) (Memory.read s.mem (s.pc.toNat + 1))
      (Memory.read s.mem (s.pc.toNat + 2)) = .ok i) : stepWith tbl s = exec i s := by
  have hf := fetchWith_low (t := tbl) hp
  rw [hd] at hf
  exact stepWith_ok hr hf

/-- The step of a running machine whose byte at the program counter is of no row, for any opcode table. -/
theorem stepWith_of_unknown_byte (hr : s.run = .running) (hp : s.pc.toNat ≤ 253)
    (hm : ∀ m, tbl m ≠ Memory.read s.mem s.pc.toNat) :
    stepWith tbl s = .next (takeFault (.unknownOpcodeError (Memory.read s.mem s.pc.toNat)) s) := by
  have hf := fetchWith_low (t := tbl) hp
  rw [decodeWith_none (lookup_none.mpr hm)] at hf
  exact stepWith_error hr hf

/-- Settles O6: with this hardware's table. -/
theorem stepRunsTheDecodedInstruction : Obligations.StepRunsTheDecodedInstruction :=
  fun _ _ => stepWith_of_decodeWith

/-- An instruction is rebuilt from two bytes that agree with its encoding as far as that goes. -/
theorem mnemonic_build_of_encoded {opA opB : Byte} (hA : 1 < i.length → opA = (encodeWith tbl i).getD 1 0)
    (hB : 2 < i.length → opB = (encodeWith tbl i).getD 2 0) : i.mnemonic.build opA opB = i := by
  cases i with
  | hlt | ret => rfl
  | prn | push | pop | call | jmp | jeq | jne =>
    rw [hA (Nat.le_refl 2)]
    rfl
  | ldi | add | mul | cmp =>
    rw [hA (Nat.le_succ 2), hB (Nat.le_refl 3)]
    rfl

/-- Settles O7: the byte at the program counter finds the instruction's row, which rebuilds it from the bytes after it. -/
theorem stepRunsTheEncodedInstruction : Obligations.StepRunsTheEncodedInstruction := by
  intro tbl hdistinct i s hr hp hbytes
  have hlength : 0 < i.length := by cases i <;> exact Nat.succ_pos _
  have hopcode : Memory.read s.mem s.pc.toNat = tbl i.mnemonic := hbytes 0 hlength
  apply stepWith_of_decodeWith hr hp
  rw [hopcode, decodeWith_self hdistinct, mnemonic_build_of_encoded (hbytes 1) (hbytes 2)]

/-- Settles O9: the lookup finds the one row with the byte at the program counter, or none. -/
theorem dispatchFollowsTheTable : Obligations.DispatchFollowsTheTable :=
  ⟨fun _ => stepWith_of_unknown_byte, fun _ _ hr hp hm => step_of_read_opc hr hp hm.symm, opc_distinct⟩

/-! ### When a step is enabled -/

/-- Every instruction answers a next state: each one ends in `commit`. -/
theorem exec_total (i : Instr) (s : State) : ∃ t, exec i s = .next t := by
  cases i with
  | hlt => exact ⟨setRun .halted s, rfl⟩
  | _ => exact commit_total s _

/-- A running machine has a step, whether fetch succeeds or raises. -/
theorem step_total (hr : s.run = .running) : ∃ t, step s = .next t := by
  cases hf : fetchWith opc s with
  | ok i =>
    obtain ⟨t, ht⟩ := exec_total i s
    exact ⟨t, (stepWith_ok hr hf).trans ht⟩
  | error c => exact ⟨takeFault c s, stepWith_error hr hf⟩

/-- Settles O11: a step that answers a next state began Running, and a Running machine has one. -/
theorem stepEnabledExactlyWhenRunning : Obligations.StepEnabledExactlyWhenRunning := by
  refine ⟨fun s => ⟨fun ⟨_, h⟩ => (step_next h).1, step_total⟩, fun s hr => ?_, fun s r hr => ?_⟩
  · rw [step, stepWith, hr]
  · rw [step, stepWith, hr]

/-! ### HLT -/

/-- Only HLT takes a running machine to Halted, and it changes the run state alone. -/
theorem exec_halted (h : exec i s = .next t) (hr : s.run = .running) (ht : t.run = .halted) :
    i = .hlt ∧ t = setRun .halted s := by
  rcases exec_next h with ⟨c, -, rfl⟩ | he
  · cases ht
  · rcases he.run_cases with hs | ⟨rfl, -⟩
    · rw [hs, hr] at ht
      cases ht
    · cases he
      exact ⟨rfl, rfl⟩

/-- A step that ends Halted ran the HLT at the program counter. -/
theorem step_halted (h : step s = .next t) (ht : t.run = .halted) :
    s.pc.toNat ≤ 253 ∧ Memory.read s.mem s.pc.toNat = opc .hlt ∧ t = setRun .halted s := by
  obtain ⟨hr, ⟨-, rfl⟩ | ⟨-, -, rfl⟩ | ⟨hp, m, hl, he⟩⟩ := step_next h
  · cases ht
  · cases ht
  · obtain ⟨hi, htEq⟩ := exec_halted he hr ht
    obtain rfl : Mnemonic.hlt = m := (congrArg Instr.mnemonic hi).symm.trans (build_mnemonic m _ _)
    exact ⟨hp, (lookup_some hl).symm, htEq⟩

/-- Settles O13: the row of HLT, its meaning, the refused operand read at 254 and 255, and the only way to Halted. -/
theorem hltHalts : Obligations.HltHalts :=
  ⟨decodeWith_self opc_distinct .hlt, rfl, fun _ => rfl, fun _ hr hp _ => stepWith_error hr (fetchWith_high hp),
    fun _ _ => step_halted⟩

end Sys2Proof.Machine
end

section
/-! PROOFS. LDI and PRN: what each commits when its operand names a register and the program counter can advance (R80, R82).
The encoding, the operand check and the advance are laws shared with the other instructions. -/

namespace Sys2Proof.Machine

variable {n : Nat} {opA : Byte} {a : RegIx} {s t : State}

/-! ### The end of an instruction that advances -/

theorem commit_advance_ok (h : t.pc.toNat + n ≤ 255) :
    commit s (advance n t) = .next (setPc (t.pc + BitVec.ofNat 8 n) t) := by
  rw [advance_ok h, commit_ok, pc_ofNat]

theorem commit_advance_error (h : 255 < t.pc.toNat + n) :
    commit s (advance n t) = .next (takeFault (.addressError .pc ((t.pc.toNat + n : Nat) : Int)) s) := by
  rw [advance_error h, commit_error]

/-! ### LDI -/

theorem execLdi_ok (imm8 : Byte) (ha : opA.toNat = a) (hp : s.pc.toNat ≤ 252) :
    execLdi opA imm8 s = .next (setPc (s.pc + 3) (setReg a imm8 s)) := by
  rw [execLdi_named imm8 s ha]
  exact commit_advance_ok (t := setReg a imm8 s) (Nat.add_le_add_right hp 3)

/-- At address 253 the advance past LDI's three bytes raises, and the register write is discarded. -/
theorem execLdi_pc_error (imm8 : Byte) (ha : opA.toNat = a) (hp : s.pc.toNat = 253) :
    execLdi opA imm8 s = .next (takeFault (.addressError .pc 256) s) := by
  have hpast : 255 < (setReg a imm8 s).pc.toNat + 3 := by rw [setReg_pc, hp]; decide
  rw [execLdi_named imm8 s ha, commit_advance_error hpast, setReg_pc, hp]
  rfl

/-- Settles O14: the row of LDI, the committed load, the refused operand, and the refused advance at address 253. -/
theorem ldiLoadsTheImmediate : Obligations.LdiLoadsTheImmediate := by
  refine ⟨fun opA imm8 => ⟨decodeWith_self opc_distinct .ldi opA imm8, rfl⟩, fun _ imm8 _ _ => execLdi_ok imm8,
    fun _ imm8 s => execLdi_unnamed imm8 s, fun opA imm8 s h7 hp => ?_⟩
  exact execLdi_pc_error (a := ⟨opA.toNat, Nat.lt_succ_of_le h7⟩) imm8 rfl hp

/-! ### PRN -/

theorem execPrn_ok (ha : opA.toNat = a) (hp : s.pc.toNat ≤ 253) :
    execPrn opA s = .next (setPc (s.pc + 2) (emit (getReg a s) s)) := by
  rw [execPrn_named s ha]
  exact commit_advance_ok (t := emit (getReg a s) s) (Nat.add_le_add_right hp 2)

/-- Settles O15: the row of PRN, the committed output, and the refused operand. -/
theorem prnEmitsTheRegister : Obligations.PrnEmitsTheRegister :=
  ⟨fun opA any2 => ⟨decodeWith_self opc_distinct .prn opA any2, rfl⟩, fun _ _ _ => execPrn_ok,
    fun _ s => execPrn_unnamed s⟩

end Sys2Proof.Machine
end

section
/-! PROOFS. The laws of the ALU as a function of two bytes (R90, R91). Its sums and products, taken exactly and reduced
modulo 256, are the bytes' own `+` and `*`, and these do not tell a signed reading from an unsigned one. -/

namespace Sys2Proof.Machine

theorem alu_add (a b : Byte) : alu .add a b = .ok (.result (a + b)) := by
  rw [BitVec.add_def]
  rfl

theorem alu_mul (a b : Byte) : alu .mul a b = .ok (.result (a * b)) := by
  have hmul : BitVec.ofNat 8 (a.toNat * b.toNat) = a * b := by
    rw [BitVec.ofNat_mul, BitVec.ofNat_toNat, BitVec.ofNat_toNat, BitVec.setWidth_eq, BitVec.setWidth_eq]
  rw [alu, hmul]

theorem alu_cmp (a b : Byte) : alu .cmp a b = .ok (.flags (compareFlags a b)) := rfl

theorem alu_other (name : String) (a b : Byte) : alu (.other name) a b = .error .unsupportedOperationError := rfl

/-- The product of the bytes read as signed numbers reduces to the same byte: reduction commutes with `*`, and a byte is the
reduction of its signed reading (R91(b)). -/
theorem alu_mul_signed (a b : Byte) : alu .mul a b = .ok (.result (BitVec.ofInt 8 (a.toInt * b.toInt))) := by
  rw [alu_mul, BitVec.ofInt_mul, BitVec.ofInt_toInt, BitVec.ofInt_toInt]

/-- 255 is the two's complement of 1 (R91(f)). -/
theorem alu_add_255 (a : Byte) : alu .add a 255 = .ok (.result (a - 1)) := by
  have hneg : (255 : Byte) = -1 := rfl
  rw [alu_add, hneg, BitVec.sub_eq_add_neg]

/-- Settles O21: the equation of each operation, the signed reading of MUL, and 255 as the two's complement of 1. -/
theorem aluArithmeticLaws : Obligations.AluArithmeticLaws :=
  ⟨fun a b => ⟨alu_add a b, alu_mul a b, compareFlags a b, alu_cmp a b⟩, alu_mul_signed, alu_add_255, alu_other⟩

end Sys2Proof.Machine
end

section
/-! PROOFS. The round trips of the stack: a POP undoes a PUSH, and a RET a CALL, whatever happened in between as long as the
pushed cell and the stack pointer are left alone (R110, R111). The state each completed instruction leaves is named once, as
`pushed` is above. -/

namespace Sys2Proof.Machine

variable {opA : Byte} {a : RegIx} {s t : State}

/-- The byte at the stack pointer. -/
def topByte (s : State) : Byte := Memory.read s.mem (getSp s).toNat

/-- Where the stack pointer and the cell it points to are kept, so is the byte on top of the stack. -/
theorem topByte_eq (hsp : getSp t = getSp s)
    (hcell : Memory.read t.mem (getSp s).toNat = Memory.read s.mem (getSp s).toNat) : topByte t = topByte s := by
  rw [topByte, hsp, hcell, topByte]

/-- A decremented stack pointer may always be incremented again. -/
theorem sub_one_ne_255 {p : Byte} (h : p ≠ 0) : p - 1 ≠ 255 := by
  bv_omega

/-! ### PUSH and POP -/

theorem getSp_pushed : getSp (pushed a s) = getSp s - 1 := getReg_setReg_self 7 _ s

/-- What PUSH stores is the register as it reads after the decrement, register 7 included (R100). -/
theorem topByte_pushed : topByte (pushed a s) = getReg a (setSp (getSp s - 1) s) := by
  rw [topByte, getSp_pushed]
  exact Memory.read_write_self ..

/-- A POP into `x[a]` before its increment: the byte on top of the stack is in the register (R102). -/
def loaded (a : RegIx) (s : State) : State := setReg a (topByte s) s

/-- The state a completed POP into `x[a]` leaves: the stack pointer, read after the load, is incremented (R102). -/
def popped (a : RegIx) (s : State) : State :=
  setPc (BitVec.ofNat 8 (s.pc.toNat + 2)) (setSp (getSp (loaded a s) + 1) (loaded a s))

theorem exec_pop_eq_popped (ha : opA.toNat = a) (hs : getSp (loaded a s) ≠ 255) (hp : s.pc.toNat + 2 ≤ 255) :
    exec (.pop opA) s = .next (popped a s) := by
  show execPop opA s = _
  rw [execPop_named s ha, ← topByte, ← loaded, incrementSp_ok hs]
  exact congrArg (commit s) (advance_ok (s := setSp _ (loaded a s)) hp)

theorem getSp_popped : getSp (popped a s) = getSp (loaded a s) + 1 := getReg_setReg_self 7 _ (loaded a s)

theorem getReg_popped (ha : a ≠ 7) : getReg a (popped a s) = topByte s := by
  simp [popped, loaded, setSp_eq, ha.symm]

/-- Between the load and the increment of a POP the stack pointer is the one PUSH left: register 7 gets it back from the
cell, any other register does not touch it. -/
theorem getSp_loaded_of_pushed (hsp : getSp t = getSp (pushed a s)) (htop : topByte t = topByte (pushed a s)) :
    getSp (loaded a t) = getSp s - 1 := by
  rw [loaded, htop, topByte_pushed, getSp_eq, setSp_eq]
  by_cases ha : a = 7
  · rw [ha, getReg_setReg_self, getReg_setReg_self]
  · rw [getReg_setReg_ne ha, ← getSp_eq, hsp, getSp_pushed]

theorem getSp_popped_of_pushed (hsp : getSp t = getSp (pushed a s)) (htop : topByte t = topByte (pushed a s)) :
    getSp (popped a t) = getSp s := by
  rw [getSp_popped, getSp_loaded_of_pushed hsp htop, BitVec.sub_add_cancel]

theorem getReg_popped_of_pushed (hsp : getSp t = getSp (pushed a s)) (htop : topByte t = topByte (pushed a s)) :
    getReg a (popped a t) = getReg a s := by
  by_cases ha : a = 7
  · subst ha
    exact getSp_popped_of_pushed hsp htop
  · rw [getReg_popped ha, htop, topByte_pushed, setSp_eq, getReg_setReg_ne (Ne.symm ha)]

/-- Settles O27: POP completes, because the pointer it increments is the decremented one, and restores both registers. -/
theorem pushThenPopRestores : Obligations.PushThenPopRestores := by
  intro opA a s ha hs hp
  refine ⟨pushed a s, exec_push_eq_pushed ha hs (by omega), fun t hsp hcell hpt => ?_⟩
  have htop : topByte t = topByte (pushed a s) := topByte_eq hsp hcell
  have hinc : getSp (loaded a t) ≠ 255 := getSp_loaded_of_pushed hsp htop ▸ sub_one_ne_255 hs
  exact ⟨popped a t, exec_pop_eq_popped ha hinc (by omega), getReg_popped_of_pushed hsp htop,
    getSp_popped_of_pushed hsp htop⟩

/-! ### CALL and RET -/

/-- The state a completed CALL of the address in `x[a]` leaves: the return address in the cell below the stack pointer, and
control at the register, read after the decrement (R104). -/
def called (a : RegIx) (s : State) : State :=
  setPc (getReg a (setSp (getSp s - 1) s))
    (setMem (Memory.write s.mem (getSp s - 1).toNat (BitVec.ofNat 8 (s.pc.toNat + 2))) (setSp (getSp s - 1) s))

theorem exec_call_eq_called (ha : opA.toNat = a) (hs : getSp s ≠ 0) : exec (.call opA) s = .next (called a s) := by
  show execCall opA s = _
  rw [execCall_named s ha, pushByte_ok hs]
  rfl

theorem getSp_called : getSp (called a s) = getSp s - 1 := getReg_setReg_self 7 _ s

theorem topByte_called : topByte (called a s) = BitVec.ofNat 8 (s.pc.toNat + 2) := by
  rw [topByte, getSp_called]
  exact Memory.read_write_self ..

/-- The state a completed RET leaves (R106). -/
def returned (s : State) : State := setPc (topByte s) (setSp (getSp s + 1) s)

theorem exec_ret_eq_returned (hs : getSp s ≠ 255) : exec .ret s = .next (returned s) := by
  show execRet s = _
  rw [execRet_eq, incrementSp_ok hs]
  rfl

theorem getSp_returned : getSp (returned s) = getSp s + 1 := getReg_setReg_self 7 _ s

/-- Settles O28: RET completes, because the pointer it increments is the decremented one, and the byte it jumps to is the
return address. -/
theorem callThenRetReturns : Obligations.CallThenRetReturns := by
  intro opA a s ha hs hp
  refine ⟨called a s, exec_call_eq_called ha hs, fun t hsp hcell => ?_⟩
  have hdec : getSp t = getSp s - 1 := Eq.trans hsp getSp_called
  have htop : topByte t = BitVec.ofNat 8 (s.pc.toNat + 2) := (topByte_eq hsp hcell).trans topByte_called
  refine ⟨returned t, exec_ret_eq_returned (hdec ▸ sub_one_ne_255 hs), ?_, ?_⟩
  · show (topByte t).toNat = _
    rw [htop, pc_ofNat_toNat (by omega)]
  · rw [← getSp_eq, getSp_returned, hdec, BitVec.sub_add_cancel, getSp_eq]

end Sys2Proof.Machine
end

section
/-! PROOFS. What software must respect is enough: an instruction whose register operands name registers, with room for the
program counter and the stack pointer inside its bounds, passes every check of its meaning (R171). -/

namespace Sys2Proof.Machine

variable {i : Instr} {opA opB : Byte} {a b : RegIx} {s : State}

theorem exists_register_of_namesRegister (h : namesRegister opA = true) : ∃ a : RegIx, opA.toNat = a :=
  ⟨⟨opA.toNat, of_decide_eq_true h⟩, rfl⟩

theorem exists_registers_of_namesRegister (h : (namesRegister opA && namesRegister opB) = true) :
    ∃ a b : RegIx, opA.toNat = a ∧ opB.toNat = b := by
  obtain ⟨hA, hB⟩ := Bool.and_eq_true_iff.mp h
  obtain ⟨a, ha⟩ := exists_register_of_namesRegister hA
  obtain ⟨b, hb⟩ := exists_register_of_namesRegister hB
  exact ⟨a, b, ha, hb⟩

/-- An ALU instruction whose checks pass commits its result and advances past its three bytes. -/
theorem commit_aluInstr_ok {op : AluOp} {r : AluResult} (ha : opA.toNat = a) (hb : opB.toNat = b)
    (hr : alu op (getReg a s) (getReg b s) = .ok r) (hp : s.pc.toNat ≤ 252) :
    commit s (aluInstr op opA opB s) = .next (setPc (s.pc + 3) (writeAluResult a r s)) := by
  have hroom : (writeAluResult a r s).pc.toNat + 3 ≤ 255 := by rw [writeAluResult_pc]; omega
  rw [aluInstr_ok ha hb s hr, commit_advance_ok hroom, writeAluResult_pc]
  rfl

/-- With room to fall through, a conditional branch commits a new program counter and nothing else, taken or not. -/
theorem commit_branchIf_ok (taken : Bool) (a : RegIx) (hp : s.pc.toNat + 2 ≤ 255) :
    ∃ target, commit s (branchIf taken a s) = .next (setPc target s) := by
  cases taken with
  | true => exact ⟨getReg a s, rfl⟩
  | false => exact ⟨s.pc + 2, commit_advance_ok hp⟩

/-- The pointer a POP increments is the popped byte for register 7 and the stack pointer for any other (R102). -/
theorem getSp_loaded : getSp (loaded a s) = if a = 7 then topByte s else getSp s := by
  rw [loaded, getSp_eq, getSp_eq]
  split
  next h => rw [h, getReg_setReg_self]
  next h => exact getReg_setReg_ne h ..

theorem getSp_loaded_ne_255 (ha : opA.toNat = a) (hs : getSp s ≠ 255) (htop : opA = 7 → topByte s ≠ 255) :
    getSp (loaded a s) ≠ 255 := by
  rw [getSp_loaded]
  split
  next h => exact htop (BitVec.eq_of_toNat_eq (ha.trans (congrArg Fin.val h)))
  next => exact hs

/-- The instruction completes where its operands name registers, the program counter has room for three bytes and the stack
pointer may step either way; only the increment of POP R7 starts from another byte. -/
theorem exec_completes (hr : s.run = .running) (hp : s.pc.toNat ≤ 252) (hw : i.wellFormed = true) (h0 : getSp s ≠ 0)
    (h255 : getSp s ≠ 255) (htop : i = .pop 7 → topByte s ≠ 255) :
    ∃ t, exec i s = .next t ∧ (t.run = .running ∨ t.run = .halted) := by
  have hp2 : s.pc.toNat + 2 ≤ 255 := by omega
  cases i with
  | hlt => exact ⟨setRun .halted s, rfl, .inr rfl⟩
  | ret => exact ⟨returned s, exec_ret_eq_returned h255, .inl hr⟩
  | add opA opB =>
    obtain ⟨a, b, ha, hb⟩ := exists_registers_of_namesRegister hw
    exact ⟨_, commit_aluInstr_ok ha hb (alu_add _ _) hp, .inl hr⟩
  | mul opA opB =>
    obtain ⟨a, b, ha, hb⟩ := exists_registers_of_namesRegister hw
    exact ⟨_, commit_aluInstr_ok ha hb (alu_mul _ _) hp, .inl hr⟩
  | cmp opA opB =>
    obtain ⟨a, b, ha, hb⟩ := exists_registers_of_namesRegister hw
    exact ⟨_, commit_aluInstr_ok ha hb (alu_cmp _ _) hp, .inl hr⟩
  | ldi opA imm8 =>
    obtain ⟨a, ha⟩ := exists_register_of_namesRegister hw
    exact ⟨_, execLdi_ok imm8 ha hp, .inl hr⟩
  | prn opA =>
    obtain ⟨a, ha⟩ := exists_register_of_namesRegister hw
    exact ⟨_, execPrn_ok ha (Nat.le_succ_of_le hp), .inl hr⟩
  | push opA =>
    obtain ⟨a, ha⟩ := exists_register_of_namesRegister hw
    exact ⟨pushed a s, exec_push_eq_pushed ha h0 hp2, .inl hr⟩
  | pop opA =>
    obtain ⟨a, ha⟩ := exists_register_of_namesRegister hw
    have hinc := getSp_loaded_ne_255 ha h255 fun h7 => htop (congrArg Instr.pop h7)
    exact ⟨popped a s, exec_pop_eq_popped ha hinc hp2, .inl hr⟩
  | call opA =>
    obtain ⟨a, ha⟩ := exists_register_of_namesRegister hw
    exact ⟨called a s, exec_call_eq_called ha h0, .inl hr⟩
  | jmp opA =>
    obtain ⟨a, ha⟩ := exists_register_of_namesRegister hw
    exact ⟨_, execJmp_named s ha, .inl hr⟩
  | jeq opA =>
    obtain ⟨a, ha⟩ := exists_register_of_namesRegister hw
    obtain ⟨target, h⟩ := commit_branchIf_ok s.fl.equal a hp2
    exact ⟨setPc target s, (execJeq_named s ha).trans h, .inl hr⟩
  | jne opA =>
    obtain ⟨a, ha⟩ := exists_register_of_namesRegister hw
    obtain ⟨target, h⟩ := commit_branchIf_ok (!s.fl.equal) a hp2
    exact ⟨setPc target s, (execJne_named s ha).trans h, .inl hr⟩

/-- Settles O47: the step runs the decoded instruction, which completes and so ends Running or Halted. -/
theorem softwareObligationsSuffice : Obligations.SoftwareObligationsSuffice := by
  intro s i hr hp hd hw h0 h255 htop
  obtain ⟨t, ht, hrun⟩ := exec_completes hr hp hw h0 h255 htop
  refine ⟨t, (stepWith_of_decodeWith hr (Nat.le_succ_of_le hp) hd).trans ht, fun r hfault => ?_⟩
  rcases hrun with h | h <;> cases h.symm.trans hfault

end Sys2Proof.Machine
end

section
/-! PROOFS. The launch: reset and then the load of an image that fits, so that the machine is Running at address 0 with the
image's first byte there (R161, R164, R165). -/

namespace Sys2Proof.Machine

variable {image : List Byte} {s : State}

/-- A launched machine is the reset one with the image stored from address 0. -/
theorem launch_next (h : launch image = .next s) :
    image.length ≤ Config.memSize ∧ s = setMem (storeBytes [] 0 image) State.reset := by
  rw [launch, loadImage] at h
  split at h
  next hl => exact ⟨hl, (Host.Outcome.next.inj h).symm⟩
  next => cases h

/-- The first byte of a stored image; an empty image leaves the reset value 0. -/
theorem read_storeBytes_zero (hl : image.length ≤ Config.memSize) :
    Memory.read (storeBytes [] 0 image) 0 = image.getD 0 0 := by
  cases image with
  | nil => rfl
  | cons b bs =>
    rw [read_storeBytes _ _ _ _ (by omega), if_pos (by simp)]

/-- Settles O57: reset puts the program counter at 0, the load puts the image there, and the step dispatches on that byte. -/
theorem entryPointIsAddressZero : Obligations.EntryPointIsAddressZero := by
  intro image s h
  obtain ⟨hl, rfl⟩ := launch_next h
  have hp : State.reset.pc.toNat ≤ 253 := Nat.zero_le 253
  exact ⟨rfl, read_storeBytes_zero hl, fun _ hm => step_of_read_opc rfl hp hm.symm,
    fun hm => stepWith_of_unknown_byte rfl hp hm⟩

end Sys2Proof.Machine
end

section
/-! PROOFS. The order of checks: the fault of each check of a meaning, in the order of R141, and what is left once the operand
bytes name registers. A row's instruction is taken with both candidate operand bytes, as the step hands them to it (R70 to
R73, R133, R134, R141). -/

namespace Sys2Proof.Machine

variable {m : Mnemonic} {opA opB : Byte} {a b : RegIx} {s t : State}

/-! ### One lemma per check -/

/-- The first operand byte is checked in every format that has one, before anything else of the instruction. -/
theorem exec_build_unnamedA (opB : Byte) (s : State) (hm : m.format ≠ .z) (h : 8 ≤ opA.toNat) :
    exec (m.build opA opB) s = .next (takeFault (.addressError .reg (opA.toNat : Int)) s) := by
  cases m with
  | hlt | ret => exact absurd rfl hm
  | add | mul | cmp => exact commit_aluInstr_error _ s (regPair_errorA h)
  | ldi => exact execLdi_unnamed opB s h
  | prn => exact execPrn_unnamed s h
  | push => exact execPush_unnamed s h
  | pop => exact execPop_unnamed s h
  | call => exact execCall_unnamed s h
  | jmp => exact execJmp_unnamed s h
  | jeq => exact execJeq_unnamed s h
  | jne => exact execJne_unnamed s h

/-- The second operand byte is a register operand in format RR alone. -/
theorem exec_build_unnamedB (s : State) (hm : m.format = .rr) (hA : opA.toNat < 8) (hB : 8 ≤ opB.toNat) :
    exec (m.build opA opB) s = .next (takeFault (.addressError .reg (opB.toNat : Int)) s) := by
  cases m with
  | add | mul | cmp => exact commit_aluInstr_error _ s (regPair_errorB hA hB)
  | _ => cases hm

theorem exec_build_stackLow (opB : Byte) (hm : m = .push ∨ m = .call) (hA : opA.toNat < 8) (hs : getSp s = 0) :
    exec (m.build opA opB) s = .next (takeFault (.stackError (-1)) s) := by
  obtain ⟨a, ha⟩ : ∃ a : RegIx, opA.toNat = a := ⟨⟨opA.toNat, hA⟩, rfl⟩
  rcases hm with rfl | rfl
  · refine (execPush_named s ha).trans ?_
    rw [pushByte_error hs]
    rfl
  · refine (execCall_named s ha).trans ?_
    rw [pushByte_error hs]
    rfl

/-- The pointer a POP increments, in the words of the order of checks. -/
theorem popPointer_eq (ha : opA.toNat = a) : popPointer opA s = getSp (loaded a s) := by
  have h7 : opA = 7 ↔ a = 7 := by
    rw [← BitVec.toNat_inj, ha, Fin.ext_iff]
    rfl
  rw [getSp_loaded, popPointer]
  simp only [h7]
  rfl

theorem exec_pop_stackHigh (hA : opA.toNat < 8) (hs : popPointer opA s = 255) :
    exec (.pop opA) s = .next (takeFault (.stackError 256) s) := by
  obtain ⟨a, ha⟩ : ∃ a : RegIx, opA.toNat = a := ⟨⟨opA.toNat, hA⟩, rfl⟩
  have hinc : incrementSp (loaded a s) = .error (.stackError 256) := incrementSp_error (popPointer_eq ha ▸ hs)
  refine (execPop_named s ha).trans ?_
  rw [← topByte, ← loaded, hinc]
  rfl

theorem exec_ret_stackHigh (hs : getSp s = 255) : exec .ret s = .next (takeFault (.stackError 256) s) := by
  refine (execRet_eq s).trans ?_
  rw [incrementSp_error hs]
  rfl

theorem commit_aluInstr_pc_error {op : AluOp} {r : AluResult} (ha : opA.toNat = a) (hb : opB.toNat = b)
    (hr : alu op (getReg a s) (getReg b s) = .ok r) (hp : s.pc.toNat = 253) :
    commit s (aluInstr op opA opB s) = .next (takeFault (.addressError .pc 256) s) := by
  have hpast : 255 < (writeAluResult a r s).pc.toNat + 3 := by rw [writeAluResult_pc]; omega
  rw [aluInstr_ok ha hb s hr, commit_advance_error hpast, writeAluResult_pc, hp]
  rfl

/-- At address 253 no instruction of three bytes can advance. -/
theorem exec_build_pastTop (hm : m.format.length = 3) (hA : opA.toNat < 8) (hB : m.format = .rr → opB.toNat < 8)
    (hp : s.pc.toNat = 253) : exec (m.build opA opB) s = .next (takeFault (.addressError .pc 256) s) := by
  obtain ⟨a, ha⟩ : ∃ a : RegIx, opA.toNat = a := ⟨⟨opA.toNat, hA⟩, rfl⟩
  cases m with
  | ldi => exact execLdi_pc_error opB ha hp
  | add => exact commit_aluInstr_pc_error (b := ⟨opB.toNat, hB rfl⟩) ha rfl (alu_add _ _) hp
  | mul => exact commit_aluInstr_pc_error (b := ⟨opB.toNat, hB rfl⟩) ha rfl (alu_mul _ _) hp
  | cmp => exact commit_aluInstr_pc_error (b := ⟨opB.toNat, hB rfl⟩) ha rfl (alu_cmp _ _) hp
  | _ => cases hm

/-! ### Behind the operand checks -/

/-- A row's instruction is ill-formed exactly when one of the two operand checks would fail. -/
theorem wellFormed_build_eq_false : (m.build opA opB).wellFormed = false ↔
    (m.format ≠ .z ∧ 8 ≤ opA.toNat) ∨ (m.format = .rr ∧ 8 ≤ opB.toNat) := by
  cases m <;> simp [Mnemonic.build, Instr.wellFormed, namesRegister, Mnemonic.format, imp_iff_not_or]

/-- The checks behind the operand checks, as they fail for a row's instruction. -/
inductive LateRaise (s : State) (m : Mnemonic) (opA : Byte) : FaultCause → Prop where
  | stackLow (hm : m = .push ∨ m = .call) (hs : getSp s = 0) : LateRaise s m opA (.stackError (-1))
  | popHigh (hm : m = .pop) (hs : popPointer opA s = 255) : LateRaise s m opA (.stackError 256)
  | retHigh (hm : m = .ret) (hs : getSp s = 255) : LateRaise s m opA (.stackError 256)
  | pc (hp : 255 < s.pc.toNat + m.format.length) :
      LateRaise s m opA (.addressError .pc ((s.pc.toNat + m.format.length : Nat) : Int))

/-- How a row's instruction ends once its operand bytes name registers: one of its late checks raises, or it completes and
ends as it began or Halted. -/
def EndsPastOperandChecks (s : State) (m : Mnemonic) (opA : Byte) (o : Host.Outcome State Fault Refusal) : Prop :=
  (∃ c, LateRaise s m opA c ∧ o = .next (takeFault c s)) ∨ ∃ t, o = .next t ∧ (t.run = s.run ∨ t.run = .halted)

theorem endsPastOperandChecks_of_advance {o : Host.Outcome State Fault Refusal}
    (ho : o = commit s (advance m.format.length t)) (hpc : t.pc = s.pc) (hrun : t.run = s.run) :
    EndsPastOperandChecks s m opA o := by
  rcases Nat.lt_or_ge 255 (t.pc.toNat + m.format.length) with hp | hp
  · rw [commit_advance_error hp, hpc] at ho
    exact .inl ⟨_, .pc (hpc ▸ hp), ho⟩
  · exact .inr ⟨_, ho.trans (commit_advance_ok hp), .inl hrun⟩

theorem endsPastOperandChecks_of_branchIf {o : Host.Outcome State Fault Refusal} {taken : Bool}
    (ho : o = commit s (branchIf taken a s)) (hm : m.format.length = 2) : EndsPastOperandChecks s m opA o := by
  cases taken with
  | true => exact .inr ⟨_, ho, .inl rfl⟩
  | false =>
    rw [branchIf_false, ← hm] at ho
    exact endsPastOperandChecks_of_advance ho rfl rfl

theorem exec_build_endsPastOperandChecks (s : State) (hw : (m.build opA opB).wellFormed = true) :
    EndsPastOperandChecks s m opA (exec (m.build opA opB) s) := by
  cases m with
  | hlt => exact .inr ⟨setRun .halted s, rfl, .inr rfl⟩
  | ret =>
    by_cases hs : getSp s = 255
    · exact .inl ⟨_, .retHigh rfl hs, exec_ret_stackHigh hs⟩
    · exact .inr ⟨_, exec_ret_eq_returned hs, .inl rfl⟩
  | add =>
    obtain ⟨a, b, ha, hb⟩ := exists_registers_of_namesRegister hw
    exact endsPastOperandChecks_of_advance (execAdd_named s ha hb) rfl rfl
  | mul =>
    obtain ⟨a, b, ha, hb⟩ := exists_registers_of_namesRegister hw
    exact endsPastOperandChecks_of_advance (execMul_named s ha hb) rfl rfl
  | cmp =>
    obtain ⟨a, b, ha, hb⟩ := exists_registers_of_namesRegister hw
    exact endsPastOperandChecks_of_advance (execCmp_named s ha hb) rfl rfl
  | ldi =>
    obtain ⟨a, ha⟩ := exists_register_of_namesRegister hw
    exact endsPastOperandChecks_of_advance (execLdi_named opB s ha) rfl rfl
  | prn =>
    obtain ⟨a, ha⟩ := exists_register_of_namesRegister hw
    exact endsPastOperandChecks_of_advance (execPrn_named s ha) rfl rfl
  | push =>
    obtain ⟨a, ha⟩ := exists_register_of_namesRegister hw
    by_cases hs : getSp s = 0
    · exact .inl ⟨_, .stackLow (.inl rfl) hs, exec_build_stackLow opB (.inl rfl) (ha ▸ a.isLt) hs⟩
    · have hexec := execPush_named s ha
      rw [pushByte_ok hs] at hexec
      exact endsPastOperandChecks_of_advance hexec rfl rfl
  | pop =>
    obtain ⟨a, ha⟩ := exists_register_of_namesRegister hw
    by_cases hs : popPointer opA s = 255
    · exact .inl ⟨_, .popHigh rfl hs, exec_pop_stackHigh (ha ▸ a.isLt) hs⟩
    · have hexec := execPop_named s ha
      rw [← topByte, ← loaded, incrementSp_ok (popPointer_eq ha ▸ hs)] at hexec
      exact endsPastOperandChecks_of_advance hexec rfl rfl
  | call =>
    obtain ⟨a, ha⟩ := exists_register_of_namesRegister hw
    by_cases hs : getSp s = 0
    · exact .inl ⟨_, .stackLow (.inr rfl) hs, exec_build_stackLow opB (.inr rfl) (ha ▸ a.isLt) hs⟩
    · exact .inr ⟨_, exec_call_eq_called ha hs, .inl rfl⟩
  | jmp =>
    obtain ⟨a, ha⟩ := exists_register_of_namesRegister hw
    exact .inr ⟨_, execJmp_named s ha, .inl rfl⟩
  | jeq =>
    obtain ⟨a, ha⟩ := exists_register_of_namesRegister hw
    exact endsPastOperandChecks_of_branchIf (execJeq_named s ha) rfl
  | jne =>
    obtain ⟨a, ha⟩ := exists_register_of_namesRegister hw
    exact endsPastOperandChecks_of_branchIf (execJne_named s ha) rfl

/-! ### The order of checks of a step -/

theorem exec_of_expectedFault_some {c : FaultCause} (hp : s.pc.toNat ≤ 253)
    (hl : lookup opc (Memory.read s.mem s.pc.toNat) = some m) (h : expectedFault s = some c) :
    exec (m.build (Memory.read s.mem (s.pc.toNat + 1)) (Memory.read s.mem (s.pc.toNat + 2))) s =
      .next (takeFault c s) := by
  rw [expectedFault, if_neg (Nat.not_le_of_lt (Nat.lt_succ_of_le hp)), hl] at h
  dsimp only at h
  split_ifs at h with hA hB hlow hpop hret hpast <;> obtain rfl := Option.some.inj h
  · obtain ⟨hz, h8⟩ := hA
    exact exec_build_unnamedA _ s hz h8
  all_goals have hA' : m.format ≠ .z → (Memory.read s.mem (s.pc.toNat + 1)).toNat < 8 := fun hz =>
    Nat.lt_of_not_le fun h8 => hA ⟨hz, h8⟩
  · obtain ⟨hrr, h8⟩ := hB
    exact exec_build_unnamedB s hrr (hA' (hrr ▸ nofun)) h8
  · obtain ⟨hm, hs⟩ := hlow
    exact exec_build_stackLow _ hm (hA' (by rcases hm with rfl | rfl <;> nofun)) hs
  · obtain ⟨rfl, hs⟩ := hpop
    exact exec_pop_stackHigh (hA' nofun) hs
  · obtain ⟨rfl, hs⟩ := hret
    exact exec_ret_stackHigh hs
  · obtain ⟨hlen, hpc⟩ := hpast
    have hB' : m.format = .rr → (Memory.read s.mem (s.pc.toNat + 2)).toNat < 8 := fun hrr =>
      Nat.lt_of_not_le fun h8 => hB ⟨hrr, h8⟩
    exact exec_build_pastTop hlen (hA' fun hz => by rw [hz] at hlen; cases hlen) hB' hpc

theorem exec_of_expectedFault_none (hp : s.pc.toNat ≤ 253)
    (hl : lookup opc (Memory.read s.mem s.pc.toNat) = some m) (h : expectedFault s = none) :
    ∃ t, exec (m.build (Memory.read s.mem (s.pc.toNat + 1)) (Memory.read s.mem (s.pc.toNat + 2))) s = .next t ∧
      (t.run = s.run ∨ t.run = .halted) := by
  rw [expectedFault, if_neg (Nat.not_le_of_lt (Nat.lt_succ_of_le hp)), hl] at h
  dsimp only at h
  split_ifs at h with hA hB hlow hpop hret hpast
  have hw : (m.build (Memory.read s.mem (s.pc.toNat + 1)) (Memory.read s.mem (s.pc.toNat + 2))).wellFormed = true :=
    Bool.of_not_eq_false fun hfalse => (wellFormed_build_eq_false.mp hfalse).elim hA hB
  rcases exec_build_endsPastOperandChecks s hw with ⟨c, hlate, -⟩ | hdone
  · cases hlate with
    | stackLow hm hs => exact absurd ⟨hm, hs⟩ hlow
    | popHigh hm hs => exact absurd ⟨hm, hs⟩ hpop
    | retHigh hm hs => exact absurd ⟨hm, hs⟩ hret
    | pc hover =>
      have hlen : m.format.length ≤ 3 := by cases m <;> decide
      exact absurd ⟨by omega, by omega⟩ hpast
  · exact hdone

/-- Settles O8: one of the two candidate operand reads is refused. -/
theorem nothingExecutesAt254Or255 : Obligations.NothingExecutesAt254Or255 :=
  fun _ hr hp => stepWith_error hr (fetchWith_high hp)

/-- Settles O45: the operand reads and the lookup come first, then the checks of the row found, each by its own lemma. -/
theorem faultsAreThoseOfTheOrder : Obligations.FaultsAreThoseOfTheOrder := by
  intro s hr
  rcases Nat.lt_or_ge 253 s.pc.toNat with hp | hp
  · have hexp : expectedFault s = some (.addressError .mem 256) := if_pos hp
    rw [hexp]
    refine ⟨fun c h => ?_, nofun⟩
    obtain rfl := Option.some.inj h
    exact nothingExecutesAt254Or255 s hr hp
  · cases hl : lookup opc (Memory.read s.mem s.pc.toNat) with
    | none =>
      have hexp : expectedFault s = some (.unknownOpcodeError (Memory.read s.mem s.pc.toNat)) := by
        rw [expectedFault, if_neg (Nat.not_le_of_lt (Nat.lt_succ_of_le hp)), hl]
      rw [hexp]
      refine ⟨fun c h => ?_, nofun⟩
      obtain rfl := Option.some.inj h
      exact stepWith_of_unknown_byte hr hp (lookup_none.mp hl)
    | some m =>
      have hstep := stepWith_of_decodeWith hr hp (decodeWith_some hl)
      refine ⟨fun c h => hstep.trans (exec_of_expectedFault_some hp hl h), fun h => ?_⟩
      obtain ⟨t, ht, hrun⟩ := exec_of_expectedFault_none hp hl h
      exact ⟨t, hstep.trans ht, hr ▸ hrun⟩

/-- Settles O46: an operand check that fails is the first to raise, and no check behind the operand checks reports a
register. -/
theorem illFormedExactlyWhenRegisterFault : Obligations.IllFormedExactlyWhenRegisterFault := by
  intro i s hr
  obtain ⟨m, opA, opB, rfl⟩ : ∃ m opA opB, i = Mnemonic.build m opA opB :=
    ⟨_, _, _, (mnemonic_build_operands i 0 0).symm⟩
  refine ⟨fun hw => ?_, fun ⟨value, hfault⟩ => Bool.of_not_eq_true fun hw => ?_⟩
  · rcases wellFormed_build_eq_false.mp hw with ⟨hz, h8⟩ | ⟨hrr, hB⟩
    · exact ⟨_, exec_build_unnamedA opB s hz h8⟩
    · rcases Nat.lt_or_ge opA.toNat 8 with hA | h8
      · exact ⟨_, exec_build_unnamedB s hrr hA hB⟩
      · exact ⟨_, exec_build_unnamedA opB s (hrr ▸ nofun) h8⟩
  · rcases exec_build_endsPastOperandChecks s hw with ⟨c, hlate, ht⟩ | ⟨t, ht, hrun⟩
    · have hrec := congrArg State.run (Host.Outcome.next.inj (ht.symm.trans hfault))
      obtain rfl : c = .addressError .reg value := congrArg FaultRecord.cause (RunState.faulted.inj hrec)
      cases hlate
    · obtain rfl := Host.Outcome.next.inj (ht.symm.trans hfault)
      rw [hr] at hrun
      rcases hrun with h | h <;> cases h

/-! ### The run state and the fault record of a step -/

/-- Settles O50: the order of checks says whether the step faulted, and only the HLT at the program counter reaches
Halted. -/
theorem runStateTransitions : Obligations.RunStateTransitions := by
  intro s t h
  have hr : s.run = .running := (step_next h).1
  obtain ⟨hsome, hnone⟩ := faultsAreThoseOfTheOrder s hr
  refine ⟨hr, ?_⟩
  cases hexp : expectedFault s with
  | some c =>
    obtain rfl := Host.Outcome.next.inj ((hsome c hexp).symm.trans h)
    exact .inr (.inr ⟨c, rfl, rfl⟩)
  | none =>
    obtain ⟨u, hu, hrun⟩ := hnone hexp
    obtain rfl := Host.Outcome.next.inj (hu.symm.trans h)
    rcases hrun with hrun | hhalted
    · exact .inl hrun
    · obtain ⟨-, hbyte, -⟩ := step_halted h hhalted
      exact .inr (.inl ⟨hhalted, hbyte⟩)

/-- Settles O44: a committed effect ends Running or Halted, so the step took a fault and changed the run state alone; a
Faulted machine has no step. -/
theorem faultCommitsNothing : Obligations.FaultCommitsNothing := by
  intro s t r h hfaulted
  obtain ⟨-, -, hstop⟩ := stepEnabledExactlyWhenRunning
  rcases step_cases h with ⟨c, -, rfl⟩ | ⟨m, -, he⟩
  · obtain rfl := RunState.faulted.inj hfaulted
    exact ⟨rfl, rfl, hstop _ _ hfaulted⟩
  · have hr : s.run = .running := (step_next h).1
    rcases he.run_cases with hrun | ⟨-, hrun⟩
    · cases (hrun.trans hr).symm.trans hfaulted
    · cases hrun.symm.trans hfaulted

/-- Settles O49: the causes a step records are those of the table, and this is none of them. -/
theorem unsupportedOperationIsUnreachable : Obligations.UnsupportedOperationIsUnreachable := by
  intro s t r h hfaulted hcause
  obtain ⟨-, hlegal⟩ := step_record h hfaulted
  rw [hcause] at hlegal
  exact hlegal

/-- Settles O12: each meaning ends in a commit, which answers a next state. -/
theorem everyInstructionAnswersANextState : Obligations.EveryInstructionAnswersANextState := exec_total

end Sys2Proof.Machine
end

section
/-! PROOFS. ADD, MUL, CMP and the branches: what each commits when its operand bytes name registers, the branch after a
comparison, and where they trap (R92 to R96, R116 to R119). -/

namespace Sys2Proof.Machine

variable {opA opB : Byte} {a b : RegIx} {s t : State}

/-! ### ADD, MUL, CMP -/

theorem pc_add_toNat {p : Byte} {n : Nat} (h : p.toNat + n ≤ 255) : (p + BitVec.ofNat 8 n).toNat = p.toNat + n := by
  rw [← pc_ofNat, pc_ofNat_toNat h]

/-- An ALU instruction that answers a result writes its first operand register and advances, and that is all. -/
theorem commit_aluInstr_result {op : AluOp} {v : Byte} (ha : opA.toNat = a) (hb : opB.toNat = b)
    (hr : alu op (getReg a s) (getReg b s) = .ok (.result v)) (hp : s.pc.toNat ≤ 252) :
    ∃ t, commit s (aluInstr op opA opB s) = .next t ∧ getReg a t = v ∧ (∀ j, j ≠ a → getReg j t = getReg j s) ∧
      t.pc.toNat = s.pc.toNat + 3 ∧ t.fl = s.fl ∧ t.run = s.run ∧ t.mem = s.mem ∧ t.out = s.out :=
  ⟨setPc (s.pc + 3) (setReg a v s), commit_aluInstr_ok ha hb hr hp, getReg_setReg_self a v s,
    fun _ hj => getReg_setReg_ne (Ne.symm hj) v s, pc_add_toNat (n := 3) (by omega), rfl, rfl, rfl, rfl⟩

/-- Settles O16: the sum of two bytes is the exact sum reduced modulo 256. -/
theorem addCompletes : Obligations.AddCompletes := by
  intro opA opB a b s ha hb hp
  obtain ⟨t, ht, hv, hframe⟩ := commit_aluInstr_result ha hb (alu_add (getReg a s) (getReg b s)) hp
  exact ⟨t, ht, by rw [hv, BitVec.toNat_add], hframe⟩

/-- Settles O17: the product of two bytes is the exact product reduced modulo 256. -/
theorem mulCompletes : Obligations.MulCompletes := by
  intro opA opB a b s ha hb hp
  obtain ⟨t, ht, hv, hframe⟩ := commit_aluInstr_result ha hb (alu_mul (getReg a s) (getReg b s)) hp
  exact ⟨t, ht, by rw [hv, BitVec.toNat_mul], hframe⟩

theorem exec_cmp_ok (ha : opA.toNat = a) (hb : opB.toNat = b) (hp : s.pc.toNat ≤ 252) :
    exec (.cmp opA opB) s = .next (setPc (s.pc + 3) (setFlags (compareFlags (getReg a s) (getReg b s)) s)) :=
  commit_aluInstr_ok ha hb (alu_cmp _ _) hp

theorem compareFlags_equal (a b : Byte) : (compareFlags a b).equal = true ↔ a = b := by
  rw [← BitVec.toNat_inj]
  exact decide_eq_true_iff

/-- Settles O18: each flag is the decision of its order, and exactly one of the three holds. -/
theorem cmpCompletes : Obligations.CmpCompletes := by
  intro opA opB a b s ha hb hp
  exact ⟨_, exec_cmp_ok ha hb hp, decide_eq_true_iff, decide_eq_true_iff, compareFlags_equal _ _,
    exactlyOneFlag_compareFlags _ _, pc_add_toNat (n := 3) (by omega), rfl, rfl, rfl, rfl⟩

/-- Settles O20: the two operand checks and then the advance at address 253, shared with the other instructions. -/
theorem aluInstructionsTrap : Obligations.AluInstructionsTrap := by
  intro op hop opA opB s
  obtain ⟨m, hm, rfl⟩ : ∃ m : Mnemonic, m.format = .rr ∧ op = m.build := by
    rcases hop with rfl | rfl | rfl
    · exact ⟨.add, rfl, rfl⟩
    · exact ⟨.mul, rfl, rfl⟩
    · exact ⟨.cmp, rfl, rfl⟩
  refine ⟨exec_build_unnamedA opB s (hm ▸ nofun), fun hA => exec_build_unnamedB s hm (Nat.lt_succ_of_le hA),
    fun hA hB => ?_⟩
  exact exec_build_pastTop (hm ▸ rfl) (Nat.lt_succ_of_le hA) fun _ => Nat.lt_succ_of_le hB

/-! ### JMP, JEQ, JNE -/

/-- A conditional branch with room to fall through commits one of two program counters. -/
theorem commit_branchIf (taken : Bool) (a : RegIx) (hp : s.pc.toNat ≤ 253) :
    commit s (branchIf taken a s) = .next (setPc (if taken = true then getReg a s else s.pc + 2) s) := by
  cases taken with
  | true => rfl
  | false => exact commit_advance_ok (Nat.add_le_add_right hp 2)

/-- Settles O30: its operand check and one write of the program counter are all JMP has. -/
theorem jmpCompletes : Obligations.JmpCompletes := fun _ _ s ha => execJmp_named s ha

/-- Settles O31: the condition is Equal. -/
theorem jeqCompletes : Obligations.JeqCompletes :=
  fun _ a s ha hp => (execJeq_named s ha).trans (commit_branchIf s.fl.equal a hp)

/-- Settles O32: the condition is the negation of Equal. -/
theorem jneCompletes : Obligations.JneCompletes := by
  intro opA a s ha hp
  refine ((execJne_named s ha).trans (commit_branchIf (!s.fl.equal) a hp)).trans ?_
  cases s.fl.equal <;> rfl

theorem exec_branches_of_equal (ha : opA.toNat = a) (hp : s.pc.toNat ≤ 253) (he : s.fl.equal = true) :
    exec (.jeq opA) s = .next { s with pc := getReg a s } ∧ exec (.jne opA) s = .next { s with pc := s.pc + 2 } := by
  rw [jeqCompletes opA a s ha hp, jneCompletes opA a s ha hp, he]
  exact ⟨rfl, rfl⟩

theorem exec_branches_of_not_equal (ha : opA.toNat = a) (hp : s.pc.toNat ≤ 253) (he : s.fl.equal = false) :
    exec (.jeq opA) s = .next { s with pc := s.pc + 2 } ∧ exec (.jne opA) s = .next { s with pc := getReg a s } := by
  rw [jeqCompletes opA a s ha hp, jneCompletes opA a s ha hp, he]
  exact ⟨rfl, rfl⟩

/-- Settles O19: the Equal a branch finds is the one CMP left, which says whether the two values were equal. -/
theorem compareThenBranch : Obligations.CompareThenBranch := by
  intro opA opB opC a b c s t u ha hb hc hp hcmp hfl hpu
  obtain rfl := Host.Outcome.next.inj ((exec_cmp_ok ha hb hp).symm.trans hcmp)
  have hequal : u.fl.equal = true ↔ getReg a s = getReg b s := hfl ▸ compareFlags_equal _ _
  exact ⟨fun h => exec_branches_of_equal hc hpu (hequal.mpr h),
    fun h => exec_branches_of_not_equal hc hpu (Bool.of_not_eq_true (mt hequal.mp h))⟩

/-- Settles O34: Equal is 0 in the reset flags. -/
theorem branchesBeforeTheFirstCompare : Obligations.BranchesBeforeTheFirstCompare :=
  fun _ _ _ hfl ha hp => exec_branches_of_not_equal ha hp (congrArg Flags.equal hfl)

/-- Settles O33: the operand check comes before the condition. -/
theorem branchesTrapOnABadOperand : Obligations.BranchesTrapOnABadOperand := by
  rintro op (rfl | rfl | rfl) opA s h8
  · exact execJmp_unnamed s h8
  · exact execJeq_unnamed s h8
  · exact execJne_unnamed s h8

end Sys2Proof.Machine
end

section
/-! PROOFS. PUSH, POP, CALL and RET: the state each completed instruction leaves, read field by field, and where they trap
(R100 to R106, R109, R134). -/

namespace Sys2Proof.Machine

variable {opA : Byte} {a j : RegIx} {s : State}

/-- A register as PUSH and CALL read it, after the decrement of the stack pointer. -/
theorem getReg_decremented : getReg a (setSp (getSp s - 1) s) = if a = 7 then getReg 7 s - 1 else getReg a s := by
  rw [setSp_eq, getSp_eq]
  split
  next h => rw [h, getReg_setReg_self]
  next h => exact getReg_setReg_ne (Ne.symm h) ..

/-- Settles O22: the state `pushed`, whose one new cell is the top of the stack. -/
theorem pushCompletes : Obligations.PushCompletes := by
  intro opA a s ha hs hp
  have hsp : getReg 7 (pushed a s) = getReg 7 s - 1 := getSp_pushed
  refine ⟨pushed a s, exec_push_eq_pushed ha hs (by omega), hsp, topByte_pushed.trans getReg_decremented,
    fun b hb => Memory.read_write_ne _ _ ?_, fun j hj => getReg_setReg_ne (Ne.symm hj) .., pushed_pc_toNat (by omega),
    rfl, rfl, rfl⟩
  rwa [hsp] at hb

/-- Settles O24: the state `called`, whose one new cell holds the return address. -/
theorem callCompletes : Obligations.CallCompletes := by
  intro opA a s ha hs hp
  have hsp : getReg 7 (called a s) = getReg 7 s - 1 := getSp_called
  refine ⟨called a s, exec_call_eq_called ha hs, hsp, ?_, fun b hb => Memory.read_write_ne _ _ ?_, getReg_decremented,
    fun j hj => getReg_setReg_ne (Ne.symm hj) .., rfl, rfl, rfl⟩
  · show (topByte (called a s)).toNat = _
    rw [topByte_called, pc_ofNat_toNat (by omega)]
  · rwa [hsp] at hb

theorem getReg_popped_ne (hja : j ≠ a) (hj7 : j ≠ 7) : getReg j (popped a s) = getReg j s := by
  simp [popped, loaded, setSp_eq, hja.symm, hj7.symm]

/-- Settles O23: the state `popped`, whose stack pointer is the pointer after the load, stepped up. -/
theorem popCompletes : Obligations.PopCompletes := by
  intro opA a s ha hne heq hp
  have hsp : getReg 7 (popped a s) = (if a = 7 then topByte s else getSp s) + 1 := by
    rw [← getSp_loaded]
    exact getSp_popped
  have hinc : getSp (loaded a s) ≠ 255 := by
    rw [getSp_loaded]
    split
    next h => exact heq h
    next h => exact hne h
  refine ⟨popped a s, exec_pop_eq_popped ha hinc (by omega), fun h => ⟨getReg_popped h, ?_⟩, fun h => ?_,
    fun _ => getReg_popped_ne, pc_ofNat_toNat (by omega), rfl, rfl, rfl, rfl⟩
  · rw [hsp, if_neg h, getSp_eq]
  · rw [hsp, if_pos h]
    rfl

/-- Settles O25: the state `returned`. -/
theorem retCompletes : Obligations.RetCompletes := fun _ hs => exec_ret_eq_returned hs

/-- Settles O26: the operand check first, then the bound of the pointer the instruction steps. -/
theorem stackInstructionsTrap : Obligations.StackInstructionsTrap := by
  refine ⟨?_, ?_, fun opA s hA hs => ?_, fun s htop => ?_, fun s hs => exec_ret_stackHigh hs⟩
  · rintro op (rfl | rfl | rfl) opA s h8
    · exact execPush_unnamed s h8
    · exact execPop_unnamed s h8
    · exact execCall_unnamed s h8
  · rintro op (rfl | rfl) opA s hA hs
    · exact exec_build_stackLow (m := .push) 0 (.inl rfl) (Nat.lt_succ_of_le hA) hs
    · exact exec_build_stackLow (m := .call) 0 (.inr rfl) (Nat.lt_succ_of_le hA) hs
  · have h7 : opA ≠ 7 := by rintro rfl; exact absurd hA (by decide)
    exact exec_pop_stackHigh (by omega) ((if_neg h7).trans hs)
  · exact exec_pop_stackHigh (by decide) ((if_pos rfl).trans htop)

end Sys2Proof.Machine
end

section
/-! PROOFS. Closed facts of the model's tables and its boundary: the opcode table, the fault codes, reset, the load and the
observation of a run (R25, R55, R58, R75, R137, R160, R165, R168). -/

namespace Sys2Proof.Machine

/-- Settles O3: the rows as printed, and the law that the table's bytes are distinct. -/
theorem opcodeTableRows : Obligations.OpcodeTableRows := ⟨rfl, opc_distinct⟩

/-- The lookup finds nothing exactly when the byte's number is none of the 13 in the table. -/
theorem lookup_opc_eq_none_iff (b : Byte) :
    lookup opc b = none ↔ b.toNat ∉ allMnemonics.map fun m => (opc m).toNat := by
  rw [lookup_none]
  simp [mem_allMnemonics, BitVec.toNat_inj]

/-- Settles O4: the ranges are what the 13 bytes leave of 0..255. -/
theorem illegalOpcodeBytes : Obligations.IllegalOpcodeBytes := by
  intro b
  have hb := b.isLt
  rw [lookup_opc_eq_none_iff]
  simp only [allMnemonics, opc, List.map_cons, List.map_nil, List.mem_cons, List.not_mem_nil, or_false,
    BitVec.reduceToNat]
  constructor
  · intro hnone
    omega
  · intro hranges
    omega

/-- Settles O48: one code for each constructor of the cause. -/
theorem faultCodes : Obligations.FaultCodes := by
  rintro ⟨cause, pc⟩
  cases cause <;> simp [FaultRecord.code]

/-- Settles O52: no cell is listed, no flag is set and the machine is Running. -/
theorem resetMeetsTheInvariant : Obligations.ResetMeetsTheInvariant :=
  ⟨Memory.wf_reset, ⟨nofun, nofun, nofun⟩, nofun⟩

theorem getReg_reset_ne {i : RegIx} (hi : i ≠ 7) : getReg i State.reset = 0 := by
  have hne : (7 : Nat) ≠ i := fun h => hi (Fin.ext h.symm)
  simp [getReg, State.reset, Config.regReset, hne]

/-- Settles O56: reset answers the reset state whatever the machine was. -/
theorem resetValues : Obligations.ResetValues :=
  fun _ => ⟨rfl, fun _ => getReg_reset_ne, rfl, rfl, rfl, rfl, fun _ => rfl, rfl⟩

/-- Settles O58: what the load stores, cell by cell. -/
theorem loadPlacesTheImage : Obligations.LoadPlacesTheImage := by
  refine ⟨fun image s hl => ?_, fun image s hl => if_neg (Nat.not_le_of_lt hl)⟩
  have hread k := read_storeBytes s.mem 0 image k (by rwa [Nat.zero_add])
  refine ⟨setMem (storeBytes s.mem 0 image) s, if_pos hl, fun k hk => ?_, fun k hk => ?_, rfl, rfl, rfl, rfl, rfl⟩
  · exact (hread k).trans (if_pos (by omega))
  · exact (hread k).trans (if_neg (by omega))

/-- Settles O59: the observation is a match on the run state. -/
theorem observationOfARun : Obligations.ObservationOfARun := by
  intro s
  cases hr : s.run <;> simp [observe, hr]

end Sys2Proof.Machine
end
